-- ==== Sys2Proof/Word.lean ====
section
/-! DEFINITION. The two word types of the core (spec R7, R9): a data byte and a 16-bit address. -/

namespace Sys2Proof

/-- `u8`: a data byte, a register, an operand byte (R7, R9). -/
abbrev Byte := BitVec 8

/-- `u16`: an address or the program counter (R7, R9). -/
abbrev Addr := BitVec 16

end Sys2Proof
end

