-- ==== Sys2Proof/Syntax.lean ====
section
/-! DEFINITION. The instructions as terms: the thirteen addressing modes (R84), operands with their bytes assembled (R85), the
57 mnemonics of spec/opcode_table.json (R103 and ILLEGAL), and `Instr`. -/

namespace Sys2Proof

/-- The thirteen addressing-mode tags (R84). -/
inductive Mode where
  | imp | acc | imm | zp | zpx | zpy | abs | abx | aby | rel | ind | izx | izy
deriving DecidableEq, Repr

/-- An addressing mode with its operand bytes assembled (R84, R85). -/
inductive Operand where
  /-- Implied: none (R87). -/
  | imp
  /-- Accumulator: the operand is `A` itself (R88). -/
  | acc
  /-- Immediate: the operand byte (R89). -/
  | imm (value : Byte)
  /-- ZeroPage (R90). -/
  | zp (base : Byte)
  /-- ZeroPage,X (R91). -/
  | zpx (base : Byte)
  /-- ZeroPage,Y (R92). -/
  | zpy (base : Byte)
  /-- Absolute (R93). -/
  | abs (base : Addr)
  /-- Absolute,X (R94). -/
  | abx (base : Addr)
  /-- Absolute,Y (R95). -/
  | aby (base : Addr)
  /-- Relative: the signed branch offset (R96). -/
  | rel (offset : Byte)
  /-- Indirect: the pointer's address (R97). -/
  | ind (pointer : Addr)
  /-- (Indirect,X): the zero-page pointer before indexing (R98). -/
  | izx (pointer : Byte)
  /-- (Indirect),Y: the zero-page pointer (R99). -/
  | izy (pointer : Byte)
deriving DecidableEq, Repr

/-- The mode of an operand. -/
def Operand.mode : Operand → Mode
  | .imp => .imp
  | .acc => .acc
  | .imm _ => .imm
  | .zp _ => .zp
  | .zpx _ => .zpx
  | .zpy _ => .zpy
  | .abs _ => .abs
  | .abx _ => .abx
  | .aby _ => .aby
  | .rel _ => .rel
  | .ind _ => .ind
  | .izx _ => .izx
  | .izy _ => .izy

/-- The mnemonics of spec/opcode_table.json: the 56 of R103, and `illegal` for the 105 undocumented opcodes of R104. -/
inductive Mnemonic where
  | adc | sbc | cmp | cpx | cpy | asl | lsr | rol | ror | bit | and | ora | eor | bcc | bcs | beq | bne | bpl
  | bmi | bvc | bvs | jsr | rts | jmp | php | plp | pha | pla | lda | ldx | ldy | sta | stx | sty | tax | tay
  | txa | tya | tsx | txs | inc | dec | inx | iny | dex | dey | clc | sec | cli | sei | cld | sed | clv | rti
  | nop | brk | illegal
deriving DecidableEq, Repr

/-- The instructions: one constructor per mnemonic of the opcode table. A mnemonic with several rows (addressing modes) takes
its row's `Operand`; an instruction with one mode takes the operand bytes of that mode. (notes/assumptions/18.md) -/
inductive Instr where
  /-- `ADC`: add with carry (R121). -/
  | adc (o : Operand)
  /-- `SBC`: subtract with carry (borrow) (R123). -/
  | sbc (o : Operand)
  /-- `CMP`: compare A (R124). -/
  | cmp (o : Operand)
  /-- `CPX`: compare X (R125). -/
  | cpx (o : Operand)
  /-- `CPY`: compare Y (R126). -/
  | cpy (o : Operand)
  /-- `ASL`: arithmetic shift left (R131). -/
  | asl (o : Operand)
  /-- `LSR`: logical shift right (R132). -/
  | lsr (o : Operand)
  /-- `ROL`: rotate left through carry (R133). -/
  | rol (o : Operand)
  /-- `ROR`: rotate right through carry (R134). -/
  | ror (o : Operand)
  /-- `BIT`: bit test (R140). -/
  | bit (o : Operand)
  /-- `AND`: and with A (R141). -/
  | and (o : Operand)
  /-- `ORA`: or with A (R142). -/
  | ora (o : Operand)
  /-- `EOR`: exclusive or with A (R143). -/
  | eor (o : Operand)
  /-- `BCC`: branch if C = 0 (R151). -/
  | bcc (offset : Byte)
  /-- `BCS`: branch if C = 1 (R152). -/
  | bcs (offset : Byte)
  /-- `BEQ`: branch if Z = 1 (R153). -/
  | beq (offset : Byte)
  /-- `BNE`: branch if Z = 0 (R154). -/
  | bne (offset : Byte)
  /-- `BPL`: branch if N = 0 (R155). -/
  | bpl (offset : Byte)
  /-- `BMI`: branch if N = 1 (R156). -/
  | bmi (offset : Byte)
  /-- `BVC`: branch if V = 0 (R157). -/
  | bvc (offset : Byte)
  /-- `BVS`: branch if V = 1 (R158). -/
  | bvs (offset : Byte)
  /-- `JSR`: jump to subroutine (R165). -/
  | jsr (target : Addr)
  /-- `RTS`: return from subroutine (R166). -/
  | rts
  /-- `JMP`: jump (R167). -/
  | jmp (o : Operand)
  /-- `PHP`: push P byte (R175). -/
  | php
  /-- `PLP`: pull P byte (R176). -/
  | plp
  /-- `PHA`: push A (R177). -/
  | pha
  /-- `PLA`: pull A (R178). -/
  | pla
  /-- `LDA`: load A (R185). -/
  | lda (o : Operand)
  /-- `LDX`: load X (R186). -/
  | ldx (o : Operand)
  /-- `LDY`: load Y (R187). -/
  | ldy (o : Operand)
  /-- `STA`: store A (R188). -/
  | sta (o : Operand)
  /-- `STX`: store X (R189). -/
  | stx (o : Operand)
  /-- `STY`: store Y (R190). -/
  | sty (o : Operand)
  /-- `TAX`: A to X (R191). -/
  | tax
  /-- `TAY`: A to Y (R192). -/
  | tay
  /-- `TXA`: X to A (R193). -/
  | txa
  /-- `TYA`: Y to A (R194). -/
  | tya
  /-- `TSX`: SP to X (R195). -/
  | tsx
  /-- `TXS`: X to SP (R196). -/
  | txs
  /-- `INC`: increment memory (R205). -/
  | inc (o : Operand)
  /-- `DEC`: decrement memory (R206). -/
  | dec (o : Operand)
  /-- `INX`: increment X (R207). -/
  | inx
  /-- `INY`: increment Y (R208). -/
  | iny
  /-- `DEX`: decrement X (R209). -/
  | dex
  /-- `DEY`: decrement Y (R210). -/
  | dey
  /-- `CLC`: clear C (R215). -/
  | clc
  /-- `SEC`: set C (R216). -/
  | sec
  /-- `CLI`: clear I (R217). -/
  | cli
  /-- `SEI`: set I (R218). -/
  | sei
  /-- `CLD`: clear D (R219). -/
  | cld
  /-- `SED`: set D (R220). -/
  | sed
  /-- `CLV`: clear V (R221). -/
  | clv
  /-- `RTI`: return from interrupt (R225). -/
  | rti
  /-- `NOP`: no operation (R226). -/
  | nop
  /-- `BRK`: software interrupt (R227); the byte after the opcode is skipped and never read. -/
  | brk (padding : Byte)
  /-- The 105 undocumented opcodes (R104, R232): the opcode byte, and the operand of its descriptor's mode. -/
  | illegal (opcode : Byte) (o : Operand)
deriving DecidableEq, Repr

/-- The mnemonic of an instruction. -/
def Instr.mnemonic : Instr → Mnemonic
  | .adc _ => .adc
  | .sbc _ => .sbc
  | .cmp _ => .cmp
  | .cpx _ => .cpx
  | .cpy _ => .cpy
  | .asl _ => .asl
  | .lsr _ => .lsr
  | .rol _ => .rol
  | .ror _ => .ror
  | .bit _ => .bit
  | .and _ => .and
  | .ora _ => .ora
  | .eor _ => .eor
  | .bcc _ => .bcc
  | .bcs _ => .bcs
  | .beq _ => .beq
  | .bne _ => .bne
  | .bpl _ => .bpl
  | .bmi _ => .bmi
  | .bvc _ => .bvc
  | .bvs _ => .bvs
  | .jsr _ => .jsr
  | .rts => .rts
  | .jmp _ => .jmp
  | .php => .php
  | .plp => .plp
  | .pha => .pha
  | .pla => .pla
  | .lda _ => .lda
  | .ldx _ => .ldx
  | .ldy _ => .ldy
  | .sta _ => .sta
  | .stx _ => .stx
  | .sty _ => .sty
  | .tax => .tax
  | .tay => .tay
  | .txa => .txa
  | .tya => .tya
  | .tsx => .tsx
  | .txs => .txs
  | .inc _ => .inc
  | .dec _ => .dec
  | .inx => .inx
  | .iny => .iny
  | .dex => .dex
  | .dey => .dey
  | .clc => .clc
  | .sec => .sec
  | .cli => .cli
  | .sei => .sei
  | .cld => .cld
  | .sed => .sed
  | .clv => .clv
  | .rti => .rti
  | .nop => .nop
  | .brk _ => .brk
  | .illegal _ _ => .illegal

/-- The operand of an instruction, with its addressing mode (R84). -/
def Instr.operand : Instr → Operand
  | .adc o => o
  | .sbc o => o
  | .cmp o => o
  | .cpx o => o
  | .cpy o => o
  | .asl o => o
  | .lsr o => o
  | .rol o => o
  | .ror o => o
  | .bit o => o
  | .and o => o
  | .ora o => o
  | .eor o => o
  | .bcc offset => .rel offset
  | .bcs offset => .rel offset
  | .beq offset => .rel offset
  | .bne offset => .rel offset
  | .bpl offset => .rel offset
  | .bmi offset => .rel offset
  | .bvc offset => .rel offset
  | .bvs offset => .rel offset
  | .jsr target => .abs target
  | .rts => .imp
  | .jmp o => o
  | .php => .imp
  | .plp => .imp
  | .pha => .imp
  | .pla => .imp
  | .lda o => o
  | .ldx o => o
  | .ldy o => o
  | .sta o => o
  | .stx o => o
  | .sty o => o
  | .tax => .imp
  | .tay => .imp
  | .txa => .imp
  | .tya => .imp
  | .tsx => .imp
  | .txs => .imp
  | .inc o => o
  | .dec o => o
  | .inx => .imp
  | .iny => .imp
  | .dex => .imp
  | .dey => .imp
  | .clc => .imp
  | .sec => .imp
  | .cli => .imp
  | .sei => .imp
  | .cld => .imp
  | .sed => .imp
  | .clv => .imp
  | .rti => .imp
  | .nop => .imp
  | .brk _ => .imp
  | .illegal _ o => o

end Sys2Proof
end

