-- ==== Sys2Proof/Machine/OpcodeTable.lean ====
section
/-! DEFINITION. The opcode dispatch table (R83): the 256 descriptors of R102 and R104, sixteen to a list in the rows of the
matrix R107, and the opcode of each documented form as the family files list it ("Modes and encodings"). The values are the
spec's own, from general knowledge (notes/assumptions/11.md). -/

namespace Sys2Proof

/-- A row of the opcode table (R83, R101): "opcode byte, addressing-mode tag, byte length (1–3), base cycle cost, extra cycle
cost if a page boundary is crossed", and the mnemonic, whose meaning is the executor. -/
structure Descriptor where
  opcode : Byte
  mnemonic : Mnemonic
  mode : Mode
  length : Nat
  cycles : Nat
  pageCycles : Nat
deriving DecidableEq, Repr

/-- Opcodes `0x00` to `0x0F` (R102, R104, R107). -/
def tableRow0 : List Descriptor := [
  ⟨0x00, .brk, .imp, 2, 7, 0⟩,
  ⟨0x01, .ora, .izx, 2, 6, 0⟩,
  ⟨0x02, .illegal, .imp, 1, 2, 0⟩,
  ⟨0x03, .illegal, .izx, 2, 8, 0⟩,
  ⟨0x04, .illegal, .zp, 2, 3, 0⟩,
  ⟨0x05, .ora, .zp, 2, 3, 0⟩,
  ⟨0x06, .asl, .zp, 2, 5, 0⟩,
  ⟨0x07, .illegal, .zp, 2, 5, 0⟩,
  ⟨0x08, .php, .imp, 1, 3, 0⟩,
  ⟨0x09, .ora, .imm, 2, 2, 0⟩,
  ⟨0x0A, .asl, .acc, 1, 2, 0⟩,
  ⟨0x0B, .illegal, .imm, 2, 2, 0⟩,
  ⟨0x0C, .illegal, .abs, 3, 4, 0⟩,
  ⟨0x0D, .ora, .abs, 3, 4, 0⟩,
  ⟨0x0E, .asl, .abs, 3, 6, 0⟩,
  ⟨0x0F, .illegal, .abs, 3, 6, 0⟩]

/-- Opcodes `0x10` to `0x1F` (R102, R104, R107). -/
def tableRow1 : List Descriptor := [
  ⟨0x10, .bpl, .rel, 2, 2, 0⟩,
  ⟨0x11, .ora, .izy, 2, 5, 1⟩,
  ⟨0x12, .illegal, .imp, 1, 2, 0⟩,
  ⟨0x13, .illegal, .izy, 2, 8, 0⟩,
  ⟨0x14, .illegal, .zpx, 2, 4, 0⟩,
  ⟨0x15, .ora, .zpx, 2, 4, 0⟩,
  ⟨0x16, .asl, .zpx, 2, 6, 0⟩,
  ⟨0x17, .illegal, .zpx, 2, 6, 0⟩,
  ⟨0x18, .clc, .imp, 1, 2, 0⟩,
  ⟨0x19, .ora, .aby, 3, 4, 1⟩,
  ⟨0x1A, .illegal, .imp, 1, 2, 0⟩,
  ⟨0x1B, .illegal, .aby, 3, 7, 0⟩,
  ⟨0x1C, .illegal, .abx, 3, 4, 1⟩,
  ⟨0x1D, .ora, .abx, 3, 4, 1⟩,
  ⟨0x1E, .asl, .abx, 3, 7, 0⟩,
  ⟨0x1F, .illegal, .abx, 3, 7, 0⟩]

/-- Opcodes `0x20` to `0x2F` (R102, R104, R107). -/
def tableRow2 : List Descriptor := [
  ⟨0x20, .jsr, .abs, 3, 6, 0⟩,
  ⟨0x21, .and, .izx, 2, 6, 0⟩,
  ⟨0x22, .illegal, .imp, 1, 2, 0⟩,
  ⟨0x23, .illegal, .izx, 2, 8, 0⟩,
  ⟨0x24, .bit, .zp, 2, 3, 0⟩,
  ⟨0x25, .and, .zp, 2, 3, 0⟩,
  ⟨0x26, .rol, .zp, 2, 5, 0⟩,
  ⟨0x27, .illegal, .zp, 2, 5, 0⟩,
  ⟨0x28, .plp, .imp, 1, 4, 0⟩,
  ⟨0x29, .and, .imm, 2, 2, 0⟩,
  ⟨0x2A, .rol, .acc, 1, 2, 0⟩,
  ⟨0x2B, .illegal, .imm, 2, 2, 0⟩,
  ⟨0x2C, .bit, .abs, 3, 4, 0⟩,
  ⟨0x2D, .and, .abs, 3, 4, 0⟩,
  ⟨0x2E, .rol, .abs, 3, 6, 0⟩,
  ⟨0x2F, .illegal, .abs, 3, 6, 0⟩]

/-- Opcodes `0x30` to `0x3F` (R102, R104, R107). -/
def tableRow3 : List Descriptor := [
  ⟨0x30, .bmi, .rel, 2, 2, 0⟩,
  ⟨0x31, .and, .izy, 2, 5, 1⟩,
  ⟨0x32, .illegal, .imp, 1, 2, 0⟩,
  ⟨0x33, .illegal, .izy, 2, 8, 0⟩,
  ⟨0x34, .illegal, .zpx, 2, 4, 0⟩,
  ⟨0x35, .and, .zpx, 2, 4, 0⟩,
  ⟨0x36, .rol, .zpx, 2, 6, 0⟩,
  ⟨0x37, .illegal, .zpx, 2, 6, 0⟩,
  ⟨0x38, .sec, .imp, 1, 2, 0⟩,
  ⟨0x39, .and, .aby, 3, 4, 1⟩,
  ⟨0x3A, .illegal, .imp, 1, 2, 0⟩,
  ⟨0x3B, .illegal, .aby, 3, 7, 0⟩,
  ⟨0x3C, .illegal, .abx, 3, 4, 1⟩,
  ⟨0x3D, .and, .abx, 3, 4, 1⟩,
  ⟨0x3E, .rol, .abx, 3, 7, 0⟩,
  ⟨0x3F, .illegal, .abx, 3, 7, 0⟩]

/-- Opcodes `0x40` to `0x4F` (R102, R104, R107). -/
def tableRow4 : List Descriptor := [
  ⟨0x40, .rti, .imp, 1, 6, 0⟩,
  ⟨0x41, .eor, .izx, 2, 6, 0⟩,
  ⟨0x42, .illegal, .imp, 1, 2, 0⟩,
  ⟨0x43, .illegal, .izx, 2, 8, 0⟩,
  ⟨0x44, .illegal, .zp, 2, 3, 0⟩,
  ⟨0x45, .eor, .zp, 2, 3, 0⟩,
  ⟨0x46, .lsr, .zp, 2, 5, 0⟩,
  ⟨0x47, .illegal, .zp, 2, 5, 0⟩,
  ⟨0x48, .pha, .imp, 1, 3, 0⟩,
  ⟨0x49, .eor, .imm, 2, 2, 0⟩,
  ⟨0x4A, .lsr, .acc, 1, 2, 0⟩,
  ⟨0x4B, .illegal, .imm, 2, 2, 0⟩,
  ⟨0x4C, .jmp, .abs, 3, 3, 0⟩,
  ⟨0x4D, .eor, .abs, 3, 4, 0⟩,
  ⟨0x4E, .lsr, .abs, 3, 6, 0⟩,
  ⟨0x4F, .illegal, .abs, 3, 6, 0⟩]

/-- Opcodes `0x50` to `0x5F` (R102, R104, R107). -/
def tableRow5 : List Descriptor := [
  ⟨0x50, .bvc, .rel, 2, 2, 0⟩,
  ⟨0x51, .eor, .izy, 2, 5, 1⟩,
  ⟨0x52, .illegal, .imp, 1, 2, 0⟩,
  ⟨0x53, .illegal, .izy, 2, 8, 0⟩,
  ⟨0x54, .illegal, .zpx, 2, 4, 0⟩,
  ⟨0x55, .eor, .zpx, 2, 4, 0⟩,
  ⟨0x56, .lsr, .zpx, 2, 6, 0⟩,
  ⟨0x57, .illegal, .zpx, 2, 6, 0⟩,
  ⟨0x58, .cli, .imp, 1, 2, 0⟩,
  ⟨0x59, .eor, .aby, 3, 4, 1⟩,
  ⟨0x5A, .illegal, .imp, 1, 2, 0⟩,
  ⟨0x5B, .illegal, .aby, 3, 7, 0⟩,
  ⟨0x5C, .illegal, .abx, 3, 4, 1⟩,
  ⟨0x5D, .eor, .abx, 3, 4, 1⟩,
  ⟨0x5E, .lsr, .abx, 3, 7, 0⟩,
  ⟨0x5F, .illegal, .abx, 3, 7, 0⟩]

/-- Opcodes `0x60` to `0x6F` (R102, R104, R107). -/
def tableRow6 : List Descriptor := [
  ⟨0x60, .rts, .imp, 1, 6, 0⟩,
  ⟨0x61, .adc, .izx, 2, 6, 0⟩,
  ⟨0x62, .illegal, .imp, 1, 2, 0⟩,
  ⟨0x63, .illegal, .izx, 2, 8, 0⟩,
  ⟨0x64, .illegal, .zp, 2, 3, 0⟩,
  ⟨0x65, .adc, .zp, 2, 3, 0⟩,
  ⟨0x66, .ror, .zp, 2, 5, 0⟩,
  ⟨0x67, .illegal, .zp, 2, 5, 0⟩,
  ⟨0x68, .pla, .imp, 1, 4, 0⟩,
  ⟨0x69, .adc, .imm, 2, 2, 0⟩,
  ⟨0x6A, .ror, .acc, 1, 2, 0⟩,
  ⟨0x6B, .illegal, .imm, 2, 2, 0⟩,
  ⟨0x6C, .jmp, .ind, 3, 5, 0⟩,
  ⟨0x6D, .adc, .abs, 3, 4, 0⟩,
  ⟨0x6E, .ror, .abs, 3, 6, 0⟩,
  ⟨0x6F, .illegal, .abs, 3, 6, 0⟩]

/-- Opcodes `0x70` to `0x7F` (R102, R104, R107). -/
def tableRow7 : List Descriptor := [
  ⟨0x70, .bvs, .rel, 2, 2, 0⟩,
  ⟨0x71, .adc, .izy, 2, 5, 1⟩,
  ⟨0x72, .illegal, .imp, 1, 2, 0⟩,
  ⟨0x73, .illegal, .izy, 2, 8, 0⟩,
  ⟨0x74, .illegal, .zpx, 2, 4, 0⟩,
  ⟨0x75, .adc, .zpx, 2, 4, 0⟩,
  ⟨0x76, .ror, .zpx, 2, 6, 0⟩,
  ⟨0x77, .illegal, .zpx, 2, 6, 0⟩,
  ⟨0x78, .sei, .imp, 1, 2, 0⟩,
  ⟨0x79, .adc, .aby, 3, 4, 1⟩,
  ⟨0x7A, .illegal, .imp, 1, 2, 0⟩,
  ⟨0x7B, .illegal, .aby, 3, 7, 0⟩,
  ⟨0x7C, .illegal, .abx, 3, 4, 1⟩,
  ⟨0x7D, .adc, .abx, 3, 4, 1⟩,
  ⟨0x7E, .ror, .abx, 3, 7, 0⟩,
  ⟨0x7F, .illegal, .abx, 3, 7, 0⟩]

/-- Opcodes `0x80` to `0x8F` (R102, R104, R107). -/
def tableRow8 : List Descriptor := [
  ⟨0x80, .illegal, .imm, 2, 2, 0⟩,
  ⟨0x81, .sta, .izx, 2, 6, 0⟩,
  ⟨0x82, .illegal, .imm, 2, 2, 0⟩,
  ⟨0x83, .illegal, .izx, 2, 6, 0⟩,
  ⟨0x84, .sty, .zp, 2, 3, 0⟩,
  ⟨0x85, .sta, .zp, 2, 3, 0⟩,
  ⟨0x86, .stx, .zp, 2, 3, 0⟩,
  ⟨0x87, .illegal, .zp, 2, 3, 0⟩,
  ⟨0x88, .dey, .imp, 1, 2, 0⟩,
  ⟨0x89, .illegal, .imm, 2, 2, 0⟩,
  ⟨0x8A, .txa, .imp, 1, 2, 0⟩,
  ⟨0x8B, .illegal, .imm, 2, 2, 0⟩,
  ⟨0x8C, .sty, .abs, 3, 4, 0⟩,
  ⟨0x8D, .sta, .abs, 3, 4, 0⟩,
  ⟨0x8E, .stx, .abs, 3, 4, 0⟩,
  ⟨0x8F, .illegal, .abs, 3, 4, 0⟩]

/-- Opcodes `0x90` to `0x9F` (R102, R104, R107). -/
def tableRow9 : List Descriptor := [
  ⟨0x90, .bcc, .rel, 2, 2, 0⟩,
  ⟨0x91, .sta, .izy, 2, 6, 0⟩,
  ⟨0x92, .illegal, .imp, 1, 2, 0⟩,
  ⟨0x93, .illegal, .izy, 2, 6, 0⟩,
  ⟨0x94, .sty, .zpx, 2, 4, 0⟩,
  ⟨0x95, .sta, .zpx, 2, 4, 0⟩,
  ⟨0x96, .stx, .zpy, 2, 4, 0⟩,
  ⟨0x97, .illegal, .zpy, 2, 4, 0⟩,
  ⟨0x98, .tya, .imp, 1, 2, 0⟩,
  ⟨0x99, .sta, .aby, 3, 5, 0⟩,
  ⟨0x9A, .txs, .imp, 1, 2, 0⟩,
  ⟨0x9B, .illegal, .aby, 3, 5, 0⟩,
  ⟨0x9C, .illegal, .abx, 3, 5, 0⟩,
  ⟨0x9D, .sta, .abx, 3, 5, 0⟩,
  ⟨0x9E, .illegal, .aby, 3, 5, 0⟩,
  ⟨0x9F, .illegal, .aby, 3, 5, 0⟩]

/-- Opcodes `0xA0` to `0xAF` (R102, R104, R107). -/
def tableRowA : List Descriptor := [
  ⟨0xA0, .ldy, .imm, 2, 2, 0⟩,
  ⟨0xA1, .lda, .izx, 2, 6, 0⟩,
  ⟨0xA2, .ldx, .imm, 2, 2, 0⟩,
  ⟨0xA3, .illegal, .izx, 2, 6, 0⟩,
  ⟨0xA4, .ldy, .zp, 2, 3, 0⟩,
  ⟨0xA5, .lda, .zp, 2, 3, 0⟩,
  ⟨0xA6, .ldx, .zp, 2, 3, 0⟩,
  ⟨0xA7, .illegal, .zp, 2, 3, 0⟩,
  ⟨0xA8, .tay, .imp, 1, 2, 0⟩,
  ⟨0xA9, .lda, .imm, 2, 2, 0⟩,
  ⟨0xAA, .tax, .imp, 1, 2, 0⟩,
  ⟨0xAB, .illegal, .imm, 2, 2, 0⟩,
  ⟨0xAC, .ldy, .abs, 3, 4, 0⟩,
  ⟨0xAD, .lda, .abs, 3, 4, 0⟩,
  ⟨0xAE, .ldx, .abs, 3, 4, 0⟩,
  ⟨0xAF, .illegal, .abs, 3, 4, 0⟩]

/-- Opcodes `0xB0` to `0xBF` (R102, R104, R107). -/
def tableRowB : List Descriptor := [
  ⟨0xB0, .bcs, .rel, 2, 2, 0⟩,
  ⟨0xB1, .lda, .izy, 2, 5, 1⟩,
  ⟨0xB2, .illegal, .imp, 1, 2, 0⟩,
  ⟨0xB3, .illegal, .izy, 2, 5, 1⟩,
  ⟨0xB4, .ldy, .zpx, 2, 4, 0⟩,
  ⟨0xB5, .lda, .zpx, 2, 4, 0⟩,
  ⟨0xB6, .ldx, .zpy, 2, 4, 0⟩,
  ⟨0xB7, .illegal, .zpy, 2, 4, 0⟩,
  ⟨0xB8, .clv, .imp, 1, 2, 0⟩,
  ⟨0xB9, .lda, .aby, 3, 4, 1⟩,
  ⟨0xBA, .tsx, .imp, 1, 2, 0⟩,
  ⟨0xBB, .illegal, .aby, 3, 4, 1⟩,
  ⟨0xBC, .ldy, .abx, 3, 4, 1⟩,
  ⟨0xBD, .lda, .abx, 3, 4, 1⟩,
  ⟨0xBE, .ldx, .aby, 3, 4, 1⟩,
  ⟨0xBF, .illegal, .aby, 3, 4, 1⟩]

/-- Opcodes `0xC0` to `0xCF` (R102, R104, R107). -/
def tableRowC : List Descriptor := [
  ⟨0xC0, .cpy, .imm, 2, 2, 0⟩,
  ⟨0xC1, .cmp, .izx, 2, 6, 0⟩,
  ⟨0xC2, .illegal, .imm, 2, 2, 0⟩,
  ⟨0xC3, .illegal, .izx, 2, 8, 0⟩,
  ⟨0xC4, .cpy, .zp, 2, 3, 0⟩,
  ⟨0xC5, .cmp, .zp, 2, 3, 0⟩,
  ⟨0xC6, .dec, .zp, 2, 5, 0⟩,
  ⟨0xC7, .illegal, .zp, 2, 5, 0⟩,
  ⟨0xC8, .iny, .imp, 1, 2, 0⟩,
  ⟨0xC9, .cmp, .imm, 2, 2, 0⟩,
  ⟨0xCA, .dex, .imp, 1, 2, 0⟩,
  ⟨0xCB, .illegal, .imm, 2, 2, 0⟩,
  ⟨0xCC, .cpy, .abs, 3, 4, 0⟩,
  ⟨0xCD, .cmp, .abs, 3, 4, 0⟩,
  ⟨0xCE, .dec, .abs, 3, 6, 0⟩,
  ⟨0xCF, .illegal, .abs, 3, 6, 0⟩]

/-- Opcodes `0xD0` to `0xDF` (R102, R104, R107). -/
def tableRowD : List Descriptor := [
  ⟨0xD0, .bne, .rel, 2, 2, 0⟩,
  ⟨0xD1, .cmp, .izy, 2, 5, 1⟩,
  ⟨0xD2, .illegal, .imp, 1, 2, 0⟩,
  ⟨0xD3, .illegal, .izy, 2, 8, 0⟩,
  ⟨0xD4, .illegal, .zpx, 2, 4, 0⟩,
  ⟨0xD5, .cmp, .zpx, 2, 4, 0⟩,
  ⟨0xD6, .dec, .zpx, 2, 6, 0⟩,
  ⟨0xD7, .illegal, .zpx, 2, 6, 0⟩,
  ⟨0xD8, .cld, .imp, 1, 2, 0⟩,
  ⟨0xD9, .cmp, .aby, 3, 4, 1⟩,
  ⟨0xDA, .illegal, .imp, 1, 2, 0⟩,
  ⟨0xDB, .illegal, .aby, 3, 7, 0⟩,
  ⟨0xDC, .illegal, .abx, 3, 4, 1⟩,
  ⟨0xDD, .cmp, .abx, 3, 4, 1⟩,
  ⟨0xDE, .dec, .abx, 3, 7, 0⟩,
  ⟨0xDF, .illegal, .abx, 3, 7, 0⟩]

/-- Opcodes `0xE0` to `0xEF` (R102, R104, R107). -/
def tableRowE : List Descriptor := [
  ⟨0xE0, .cpx, .imm, 2, 2, 0⟩,
  ⟨0xE1, .sbc, .izx, 2, 6, 0⟩,
  ⟨0xE2, .illegal, .imm, 2, 2, 0⟩,
  ⟨0xE3, .illegal, .izx, 2, 8, 0⟩,
  ⟨0xE4, .cpx, .zp, 2, 3, 0⟩,
  ⟨0xE5, .sbc, .zp, 2, 3, 0⟩,
  ⟨0xE6, .inc, .zp, 2, 5, 0⟩,
  ⟨0xE7, .illegal, .zp, 2, 5, 0⟩,
  ⟨0xE8, .inx, .imp, 1, 2, 0⟩,
  ⟨0xE9, .sbc, .imm, 2, 2, 0⟩,
  ⟨0xEA, .nop, .imp, 1, 2, 0⟩,
  ⟨0xEB, .illegal, .imm, 2, 2, 0⟩,
  ⟨0xEC, .cpx, .abs, 3, 4, 0⟩,
  ⟨0xED, .sbc, .abs, 3, 4, 0⟩,
  ⟨0xEE, .inc, .abs, 3, 6, 0⟩,
  ⟨0xEF, .illegal, .abs, 3, 6, 0⟩]

/-- Opcodes `0xF0` to `0xFF` (R102, R104, R107). -/
def tableRowF : List Descriptor := [
  ⟨0xF0, .beq, .rel, 2, 2, 0⟩,
  ⟨0xF1, .sbc, .izy, 2, 5, 1⟩,
  ⟨0xF2, .illegal, .imp, 1, 2, 0⟩,
  ⟨0xF3, .illegal, .izy, 2, 8, 0⟩,
  ⟨0xF4, .illegal, .zpx, 2, 4, 0⟩,
  ⟨0xF5, .sbc, .zpx, 2, 4, 0⟩,
  ⟨0xF6, .inc, .zpx, 2, 6, 0⟩,
  ⟨0xF7, .illegal, .zpx, 2, 6, 0⟩,
  ⟨0xF8, .sed, .imp, 1, 2, 0⟩,
  ⟨0xF9, .sbc, .aby, 3, 4, 1⟩,
  ⟨0xFA, .illegal, .imp, 1, 2, 0⟩,
  ⟨0xFB, .illegal, .aby, 3, 7, 0⟩,
  ⟨0xFC, .illegal, .abx, 3, 4, 1⟩,
  ⟨0xFD, .sbc, .abx, 3, 4, 1⟩,
  ⟨0xFE, .inc, .abx, 3, 7, 0⟩,
  ⟨0xFF, .illegal, .abx, 3, 7, 0⟩]

/-- The dispatch table: "256 descriptors, one per possible opcode byte" (R82), in opcode order. -/
def table : List Descriptor :=
  tableRow0 ++ tableRow1 ++ tableRow2 ++ tableRow3 ++ tableRow4 ++ tableRow5 ++ tableRow6 ++ tableRow7
    ++ tableRow8 ++ tableRow9 ++ tableRowA ++ tableRowB ++ tableRowC ++ tableRowD ++ tableRowE ++ tableRowF

/-- There are 256 descriptors (R82). -/
theorem table_length : table.length = 256 := by
  simp only [table, List.length_append]
  decide

/-- The table indexed by the opcode byte (R82, R278): a pure lookup, defined for every byte. -/
def descriptor (op : Byte) : Descriptor :=
  table.get ⟨op.toNat, by rw [table_length]; exact op.isLt⟩

/-- The addressing modes and opcode bytes of a documented mnemonic, as the "Modes and encodings" lines of 40_arithmetic.md to
49_system.md list them. An undocumented opcode is named by its byte, not by this list. -/
def forms : Mnemonic → List (Mode × Byte)
  | .adc => [(.imm, 0x69), (.zp, 0x65), (.zpx, 0x75), (.abs, 0x6D), (.abx, 0x7D),
    (.aby, 0x79), (.izx, 0x61), (.izy, 0x71)]
  | .sbc => [(.imm, 0xE9), (.zp, 0xE5), (.zpx, 0xF5), (.abs, 0xED), (.abx, 0xFD),
    (.aby, 0xF9), (.izx, 0xE1), (.izy, 0xF1)]
  | .cmp => [(.imm, 0xC9), (.zp, 0xC5), (.zpx, 0xD5), (.abs, 0xCD), (.abx, 0xDD),
    (.aby, 0xD9), (.izx, 0xC1), (.izy, 0xD1)]
  | .cpx => [(.imm, 0xE0), (.zp, 0xE4), (.abs, 0xEC)]
  | .cpy => [(.imm, 0xC0), (.zp, 0xC4), (.abs, 0xCC)]
  | .asl => [(.acc, 0x0A), (.zp, 0x06), (.zpx, 0x16), (.abs, 0x0E), (.abx, 0x1E)]
  | .lsr => [(.acc, 0x4A), (.zp, 0x46), (.zpx, 0x56), (.abs, 0x4E), (.abx, 0x5E)]
  | .rol => [(.acc, 0x2A), (.zp, 0x26), (.zpx, 0x36), (.abs, 0x2E), (.abx, 0x3E)]
  | .ror => [(.acc, 0x6A), (.zp, 0x66), (.zpx, 0x76), (.abs, 0x6E), (.abx, 0x7E)]
  | .bit => [(.zp, 0x24), (.abs, 0x2C)]
  | .and => [(.imm, 0x29), (.zp, 0x25), (.zpx, 0x35), (.abs, 0x2D), (.abx, 0x3D),
    (.aby, 0x39), (.izx, 0x21), (.izy, 0x31)]
  | .ora => [(.imm, 0x09), (.zp, 0x05), (.zpx, 0x15), (.abs, 0x0D), (.abx, 0x1D),
    (.aby, 0x19), (.izx, 0x01), (.izy, 0x11)]
  | .eor => [(.imm, 0x49), (.zp, 0x45), (.zpx, 0x55), (.abs, 0x4D), (.abx, 0x5D),
    (.aby, 0x59), (.izx, 0x41), (.izy, 0x51)]
  | .bcc => [(.rel, 0x90)]
  | .bcs => [(.rel, 0xB0)]
  | .beq => [(.rel, 0xF0)]
  | .bne => [(.rel, 0xD0)]
  | .bpl => [(.rel, 0x10)]
  | .bmi => [(.rel, 0x30)]
  | .bvc => [(.rel, 0x50)]
  | .bvs => [(.rel, 0x70)]
  | .jsr => [(.abs, 0x20)]
  | .rts => [(.imp, 0x60)]
  | .jmp => [(.abs, 0x4C), (.ind, 0x6C)]
  | .php => [(.imp, 0x08)]
  | .plp => [(.imp, 0x28)]
  | .pha => [(.imp, 0x48)]
  | .pla => [(.imp, 0x68)]
  | .lda => [(.imm, 0xA9), (.zp, 0xA5), (.zpx, 0xB5), (.abs, 0xAD), (.abx, 0xBD),
    (.aby, 0xB9), (.izx, 0xA1), (.izy, 0xB1)]
  | .ldx => [(.imm, 0xA2), (.zp, 0xA6), (.zpy, 0xB6), (.abs, 0xAE), (.aby, 0xBE)]
  | .ldy => [(.imm, 0xA0), (.zp, 0xA4), (.zpx, 0xB4), (.abs, 0xAC), (.abx, 0xBC)]
  | .sta => [(.zp, 0x85), (.zpx, 0x95), (.abs, 0x8D), (.abx, 0x9D), (.aby, 0x99), (.izx, 0x81), (.izy, 0x91)]
  | .stx => [(.zp, 0x86), (.zpy, 0x96), (.abs, 0x8E)]
  | .sty => [(.zp, 0x84), (.zpx, 0x94), (.abs, 0x8C)]
  | .tax => [(.imp, 0xAA)]
  | .tay => [(.imp, 0xA8)]
  | .txa => [(.imp, 0x8A)]
  | .tya => [(.imp, 0x98)]
  | .tsx => [(.imp, 0xBA)]
  | .txs => [(.imp, 0x9A)]
  | .inc => [(.zp, 0xE6), (.zpx, 0xF6), (.abs, 0xEE), (.abx, 0xFE)]
  | .dec => [(.zp, 0xC6), (.zpx, 0xD6), (.abs, 0xCE), (.abx, 0xDE)]
  | .inx => [(.imp, 0xE8)]
  | .iny => [(.imp, 0xC8)]
  | .dex => [(.imp, 0xCA)]
  | .dey => [(.imp, 0x88)]
  | .clc => [(.imp, 0x18)]
  | .sec => [(.imp, 0x38)]
  | .cli => [(.imp, 0x58)]
  | .sei => [(.imp, 0x78)]
  | .cld => [(.imp, 0xD8)]
  | .sed => [(.imp, 0xF8)]
  | .clv => [(.imp, 0xB8)]
  | .rti => [(.imp, 0x40)]
  | .nop => [(.imp, 0xEA)]
  | .brk => [(.imp, 0x00)]
  | .illegal => []

/-- The descriptor of a documented mnemonic in a mode, if the spec gives it that form. -/
def documentedDescriptor (m : Mnemonic) (mode : Mode) : Option Descriptor := ((forms m).lookup mode).map descriptor

/-- The descriptor of an undocumented opcode (R104), if `op` is one and `mode` is its mode. -/
def illegalDescriptor (op : Byte) (mode : Mode) : Option Descriptor :=
  if (descriptor op).mnemonic = .illegal ∧ (descriptor op).mode = mode then some (descriptor op) else none

/-- The descriptor of an instruction: none if it is no row of the table. -/
def Instr.descriptor? : Instr → Option Descriptor
  | .illegal op o => illegalDescriptor op o.mode
  | i => documentedDescriptor i.mnemonic i.operand.mode

end Sys2Proof
end

