-- ==== Sys2Proof/Machine/Bits.lean ====
section
/-! DEFINITION. Bit fields, concatenation and extension as the spec's notation has them (R9, R10). -/

namespace Sys2Proof.Machine

/-- `v[k]` of a byte (R9). -/
def bit (v : Byte) (k : Nat) : Bool := v.getLsbD k

/-- `w[7:0]`, the low byte of a 16-bit value (R9). -/
def loByte (w : Addr) : Byte := w.setWidth 8

/-- `w[15:8]`, the high byte of a 16-bit value: the page of an address (R9). -/
def hiByte (w : Addr) : Byte := (w >>> 8).setWidth 8

/-- `hi:lo`, that is `hi * 256 + lo` (R10). -/
def word (hi lo : Byte) : Addr := BitVec.ofNat 16 (hi.toNat * 256 + lo.toNat)

/-- `zext(v)`: a byte as the 16-bit value of the same number (R10, R85). -/
def zext (v : Byte) : Addr := v.setWidth 16

/-- `sext_8(v)` reduced modulo 65536: the branch offset as it enters a 16-bit sum (R10, R85). -/
def sext (v : Byte) : Addr := v.signExtend 16

/-- A flag as the number 0 or 1 in which it enters a sum or a packed byte (R9, R10). -/
def bitValue (f : Bool) : Nat := if f then 1 else 0

end Sys2Proof.Machine
end

