-- ==== Sys2Proof/Machine/Flags.lean ====
section
/-! DEFINITION. The eight flags, `Pack`, `Unpack`, `SetZN`, and every flag computation the spec gives (R28 to R36, R121 to
R140). -/

namespace Sys2Proof.Machine

/-- The eight independent 1-bit flags (R28). They are eight separate bits; the P byte exists only as the result of `pack` and
the argument of `unpack`. -/
structure Flags where
  /-- Carry -/
  c : Bool
  /-- Zero -/
  z : Bool
  /-- Interrupt-disable -/
  i : Bool
  /-- Decimal: stored, never read by arithmetic (R30) -/
  d : Bool
  /-- Break: written by `unpack` only (R35) -/
  b : Bool
  /-- Unused: `pack` forces it to 1, `unpack` stores 1 (R31, R32) -/
  u : Bool
  /-- Overflow -/
  v : Bool
  /-- Negative -/
  n : Bool
deriving DecidableEq, Repr, Inhabited

/-- `Pack()` (R31): bit 0 = C, 1 = Z, 2 = I, 3 = D, 4 = B, 5 = 1 whatever the stored U is, 6 = V, 7 = N. -/
def Flags.pack (f : Flags) : Byte :=
  BitVec.ofNat 8 (bitValue f.c + bitValue f.z * 2 + bitValue f.i * 4 + bitValue f.d * 8 + bitValue f.b * 16 + 32
    + bitValue f.v * 64 + bitValue f.n * 128)

/-- `Unpack(b)` (R32): each flag from its bit; U is stored as 1 whatever bit 5 is. -/
def Flags.unpack (p : Byte) : Flags :=
  { c := bit p 0, z := bit p 1, i := bit p 2, d := bit p 3, b := bit p 4, u := true, v := bit p 6, n := bit p 7 }

/-- The P byte `PHP` and `BRK` push (R36): bits 4 and 5 forced to 1. -/
def Flags.softwarePushed (f : Flags) : Byte := f.pack ||| 0x30

/-- The P byte an interrupt service pushes (R36): bit 4 forced to 0, bit 5 to 1. -/
def Flags.hardwarePushed (f : Flags) : Byte := (f.pack &&& 0xEF) ||| 0x20

/-- `SetZN(v)` (R34). -/
def Flags.setZN (f : Flags) (v : Byte) : Flags := { f with z := v == 0, n := bit v 7 }

/-- The unsigned sum `a + m + C` of R121, a number from 0 to 511. -/
def adcSum (a m : Byte) (carry : Bool) : Nat := a.toNat + m.toNat + bitValue carry

/-- `r = sum & 0xFF` (R121). -/
def adcResult (a m : Byte) (carry : Bool) : Byte := BitVec.ofNat 8 (adcSum a m carry)

/-- The flags after an addition with carry (R121): C, V, then Z and N of the result. `a` is the accumulator before it is
overwritten. -/
def Flags.afterAdc (f : Flags) (a m : Byte) : Flags :=
  let r := adcResult a m f.c
  Flags.setZN { f with c := decide (adcSum a m f.c > 0xFF), v := !bit (a ^^^ m) 7 && bit (a ^^^ r) 7 } r

/-- `Compare(a, b)` (R122): C, Z, N; V is untouched. -/
def Flags.afterCompare (f : Flags) (a m : Byte) : Flags :=
  { f with c := decide (a.toNat ≥ m.toNat), z := a == m, n := bit (a - m) 7 }

/-- The flags after a shift or rotate (R130): C is the bit shifted out, Z and N describe the result. -/
def Flags.afterShift (f : Flags) (out : Bool) (r : Byte) : Flags := Flags.setZN { f with c := out } r

/-- The flags after `BIT` (R140): Z from `A & m`, N and V from bits 7 and 6 of `m`. -/
def Flags.afterBit (f : Flags) (a m : Byte) : Flags :=
  { f with z := (a &&& m) == 0, n := bit m 7, v := bit m 6 }

/-- `ASL` (R131): toward bit 7, a 0 enters. -/
def aslResult (v : Byte) : Byte := v <<< 1

/-- `LSR` (R132): toward bit 0, a 0 enters. -/
def lsrResult (v : Byte) : Byte := v >>> 1

/-- `ROL` (R133): toward bit 7, the prior carry enters at bit 0. -/
def rolResult (v : Byte) (carry : Bool) : Byte := (v <<< 1) ||| BitVec.ofNat 8 (bitValue carry)

/-- `ROR` (R134): toward bit 0, the prior carry enters at bit 7. -/
def rorResult (v : Byte) (carry : Bool) : Byte := (v >>> 1) ||| BitVec.ofNat 8 (bitValue carry * 128)

end Sys2Proof.Machine
end

