-- ==== Sys2Proof/Machine/Memory.lean ====
section
/-! DEFINITION. What is behind the memory access contract, as plain data: 65,536 byte cells in one canonical form, the windows
that say which addresses are not plain RAM, and the accesses that reached a device (R8, R50, R51, R52, R66). -/

namespace Sys2Proof.Machine

/-- One byte access to the memory contract, with its address and the byte moved (R50, R281). -/
inductive Access where
  /-- `read8(addr)` that answered `val` (R51). -/
  | rd (addr : Addr) (val : Byte)
  /-- `write8(addr, val)` (R52). -/
  | wr (addr : Addr) (val : Byte)
deriving DecidableEq, Repr

/-- One access as it reaches the contract, without an answer (R50). -/
inductive Request where
  /-- `read8(addr)`. -/
  | read (addr : Addr)
  /-- `write8(addr, val)`. -/
  | write (addr : Addr) (val : Byte)
deriving DecidableEq, Repr

/-- Cells as a list of (address, byte) pairs. Canonical form (`Memory.wf`): addresses strictly rising, each below 65,536,
and no entry equal to what an unlisted address reads as. -/
abbrev Memory := List Host.Cell

/-- What a cell that nothing has written holds. R51 makes `read8` total; its value is left to the contract.
DESIGN CHOICE (notes/assumptions/2.md), unsafe. -/
def Memory.unlisted : Byte := 0

/-- The byte at key `k`. -/
def Memory.readKey : Memory → Nat → Byte
  | [], _ => Memory.unlisted
  | (j, v) :: rest, k => if j = k then v else Memory.readKey rest k

/-- The byte of the cell at an address. -/
def Memory.read (m : Memory) (addr : Addr) : Byte := m.readKey addr.toNat

/-- A cell at the head of a memory, listed only where it differs from what an unlisted address reads as. -/
def Memory.cons (k : Nat) (v : Byte) (rest : Memory) : Memory := if v = Memory.unlisted then rest else (k, v) :: rest

/-- Store `v` at key `k`, keeping the canonical form. -/
def Memory.writeKey : Memory → Nat → Byte → Memory
  | [], k, v => Memory.cons k v []
  | (j, w) :: rest, k, v =>
    if k < j then Memory.cons k v ((j, w) :: rest)
    else if k = j then Memory.cons k v rest
    else (j, w) :: Memory.writeKey rest k v

/-- Store a byte in the cell at an address. -/
def Memory.write (m : Memory) (addr : Addr) (v : Byte) : Memory := m.writeKey addr.toNat v

/-- Where `Read16Bug` takes its high byte from (R54): the next address, but without leaving the page of `addr`. -/
def bugNext (addr : Addr) : Addr := (addr &&& 0xFF00) ||| ((addr + 1) &&& 0x00FF)

/-- A list of writes, in order. -/
def Memory.writeAll (m : Memory) : List (Addr × Byte) → Memory
  | [] => m
  | (addr, v) :: rest => Memory.writeAll (m.write addr v) rest

/-- The canonical form above a lower bound for the next key. -/
def Memory.wfFrom : Nat → Memory → Bool
  | _, [] => true
  | lo, (k, v) :: rest => decide (lo ≤ k) && decide (k < 65536) && decide (v ≠ Memory.unlisted) && Memory.wfFrom (k + 1) rest

/-- The canonical form: keys strictly rising and below 65,536, no entry equal to what an unlisted address reads as. -/
def Memory.wf (m : Memory) : Bool := Memory.wfFrom 0 m

/-- How the contract answers an address (R51, R52, U3 of 93_implementation_defined.md; notes/assumptions/1.md). -/
inductive WindowKind where
  /-- RAM whose first byte is the cell `base`: a mirror where another address has the same cell. -/
  | ram (base : Addr)
  /-- ROM whose first byte is the cell `base`: "ROM ignores writes" (R52). -/
  | rom (base : Addr)
  /-- Registers of a peripheral: the answer is a free value, and a read is an event like a write, so that it may change later
  answers (R51, R65). -/
  | device
deriving DecidableEq, Repr

/-- The addresses `first` to `last`, with how they answer. -/
structure Window where
  first : Addr
  last : Addr
  kind : WindowKind
deriving DecidableEq, Repr

/-- What a device has seen. -/
inductive Exchange where
  /-- An access to a device window. -/
  | access (r : Request)
  /-- A step of the peripherals between two steps of the core; the number only tells such events apart (R283). -/
  | event (n : Nat)
deriving DecidableEq, Repr

/-- The state `M` of the parameter `Mem` (R8) as plain data; `read8` and `write8` are in Machine/Contract.lean. -/
structure Contract where
  /-- The byte cells. -/
  cells : Memory
  /-- The addresses that are not plain RAM, the first match counting; an address in no window is the cell of its own number. No
  step and no action changes them. -/
  windows : List Window
  /-- What the devices have seen, the newest first: the state of the devices is a function of it. -/
  exchanges : List Exchange
deriving DecidableEq, Repr

/-- Plain RAM with nothing written, the default R8 recommends. -/
def Contract.plain : Contract := { cells := [], windows := [], exchanges := [] }

end Sys2Proof.Machine
end

