-- ==== Sys2Proof/Config.lean ====
section
/-! DEFINITION. The parameters of the model (R8): `ResetAXY`, and two FREE VALUES, `IllegalEffect` and the answers of devices
behind the parameter `Mem`, whose arrangement is data (Machine/Memory.lean); `Env` is Machine/Environment.lean. -/

namespace Sys2Proof.Config

/-- `A` at reset, parameter `ResetAXY` (R8, R44). DESIGN CHOICE, unsafe (notes/assumptions/3.md). -/
def resetA : Byte := 0

/-- `X` at reset, parameter `ResetAXY` (R8, R44). DESIGN CHOICE, unsafe (notes/assumptions/3.md). -/
def resetX : Byte := 0

/-- `Y` at reset, parameter `ResetAXY` (R8, R44). DESIGN CHOICE, unsafe (notes/assumptions/3.md). -/
def resetY : Byte := 0

/-- What a device answers to a `read8`, from the whole contract (what the devices have seen among it) and the address: a FREE
VALUE (R51, U3 of 93_implementation_defined.md: "parameter `Mem`"). It has no body, so that a claim holds for every device;
a claim about one device takes what that device answers as a hypothesis on this constant. DESIGN CHOICE, safe
(notes/assumptions/21.md). -/
opaque deviceByte (m : Machine.Contract) (addr : Addr) : Byte

/-- What R232 leaves open of an undocumented opcode: "the effect on `A`, `X`, `Y`, `SP`, the flags and memory, and whether
the resolver's and executor's memory accesses take place". A new value of each register and flag, and the accesses made, through
which alone the core reaches memory (R50). -/
structure IllegalEffect where
  a : Byte
  x : Byte
  y : Byte
  sp : Byte
  flags : Machine.Flags
  requests : List Machine.Request
deriving DecidableEq, Repr, Inhabited

/-- The parameter `IllegalEffect` of R8, left uninterpreted: a FREE VALUE. It is applied to the opcode and to the whole state
before the instruction (`σ` is `Machine.State`, declared later). It has no body, so that nothing can be proved of what it
gives: not a no-op, not the customary effect, not that anything is kept (R232). DESIGN CHOICE, safe
(notes/assumptions/4.md). -/
opaque illegalEffect {σ : Type} (op : Byte) (s : σ) : IllegalEffect

end Sys2Proof.Config
end

