-- ==== Sys2Proof/Machine/Contract.lean ====
section
/-! DEFINITION. The memory access contract (R50 to R52, R55): `read8 : M -> u16 -> (u8, M)` and `write8 : M -> u16 -> u8 -> M`, over
every arrangement of RAM, mirrors, ROM and devices. -/

namespace Sys2Proof.Machine

/-- Where an address leads: to a cell, which a write changes or not, or to a device. -/
inductive Place where
  | cell (addr : Addr) (writable : Bool)
  | device
deriving DecidableEq, Repr

/-- The address lies in the window. -/
def Window.covers (w : Window) (addr : Addr) : Bool := decide (w.first ≤ addr) && decide (addr ≤ w.last)

/-- Where an address of the window leads. -/
def Window.place (w : Window) (addr : Addr) : Place :=
  match w.kind with
  | .ram base => .cell (base + (addr - w.first)) true
  | .rom base => .cell (base + (addr - w.first)) false
  | .device => .device

/-- Where an address leads, by the first window that covers it. -/
def placeIn : List Window → Addr → Place
  | [], addr => .cell addr true
  | w :: rest, addr => if w.covers addr then w.place addr else placeIn rest addr

/-- Where an address leads. -/
def Contract.place (m : Contract) (addr : Addr) : Place := placeIn m.windows addr

/-- The cell an address reads from; none for a device. -/
def Contract.cellAt (m : Contract) (addr : Addr) : Option Addr :=
  match m.place addr with
  | .cell c _ => some c
  | .device => none

/-- A device sees an exchange. -/
def Contract.record (m : Contract) (e : Exchange) : Contract := { m with exchanges := e :: m.exchanges }

/-- `read8` (R51): total; it answers a byte and the contract after the read. -/
def Contract.read8 (m : Contract) (addr : Addr) : Byte × Contract :=
  match m.place addr with
  | .cell c _ => (m.cells.read c, m)
  | .device => (Config.deviceByte m addr, m.record (.access (.read addr)))

/-- `write8` (R52): it cannot fail. -/
def Contract.write8 (m : Contract) (addr : Addr) (v : Byte) : Contract :=
  match m.place addr with
  | .cell c true => { m with cells := m.cells.write c v }
  | .cell _ false => m
  | .device => m.record (.access (.write addr v))

/-- `write16` of the contract (R50, R55), little-endian, "built from the byte primitives". No instruction uses it; the environment
may. That the low byte is written first, which a device can tell, and that `addr + 1` wraps at 16 bits are the model's choices:
R53 and D6, D7 speak of the read. DESIGN CHOICE, unsafe (notes/assumptions/22.md). -/
def Contract.write16 (m : Contract) (addr : Addr) (w : Addr) : Contract :=
  (m.write8 addr (loByte w)).write8 (addr + 1) (hiByte w)

/-- The contract after a list of accesses, in order. -/
def Contract.replay (m : Contract) : List Access → Contract
  | [] => m
  | .rd addr _ :: rest => Contract.replay (m.read8 addr).2 rest
  | .wr addr v :: rest => Contract.replay (m.write8 addr v) rest

/-- The address becomes plain RAM, if it is not. -/
def Contract.makeRam (m : Contract) (addr : Addr) : Contract :=
  if m.place addr = .cell addr true then m
  else { m with windows := { first := addr, last := addr, kind := .ram addr } :: m.windows }

/-- The canonical form of the cells. -/
def Contract.wf (m : Contract) : Bool := m.cells.wf

end Sys2Proof.Machine
end

