-- ==== Sys2Proof/Machine/State.lean ====
section
/-! DEFINITION. The state of the machine as plain data (R20), why a step could stop, and the state after reset (R43, R270). -/

namespace Sys2Proof.Machine

/-- The pending-interrupt indicator (R38, R242): "at most one interrupt kind is pending at a time". -/
inductive Interrupt where
  /-- `Idle`: nothing is pending. -/
  | none
  /-- `IRQ-Pending`: a maskable request waits. -/
  | irq
  /-- `NMI-Pending`: a non-maskable request waits. -/
  | nmi
deriving DecidableEq, Repr

/-- The state: the fields of R20 "and no others", the memory behind the contract (R50, R66), and the record of the accesses
the core makes to it. -/
structure State where
  /-- `PC` (R25). -/
  pc : Addr
  /-- `SP` (R24). -/
  sp : Byte
  /-- `A` (R21). -/
  a : Byte
  /-- `X` (R22). -/
  x : Byte
  /-- `Y` (R23). -/
  y : Byte
  /-- The eight flags (R28). -/
  flags : Flags
  /-- `Cycles`, as an unbounded natural number (R37; notes/assumptions/6.md). -/
  cycles : Nat
  /-- `interrupt` (R38). -/
  interrupt : Interrupt
  /-- `stall`, as an unbounded natural number (R39; notes/assumptions/7.md). -/
  stall : Nat
  /-- What is behind the memory contract, the parameter `Mem` as data (R8, R50, R66; notes/assumptions/1.md). -/
  mem : Contract
  /-- The MODEL'S OWN field: the accesses the core has made to the memory contract since its last step (or its reset) began,
  in order (R12, R281). Nothing reads it (notes/assumptions/8.md). -/
  bus : List Access
deriving DecidableEq, Repr

/-- Why the machine stops with a fault. There is no such reason: "The core raises no synchronous exception. No instruction can
fault" (R240), "Nothing faults, nothing stops" (R232). Safe or unsafe does not arise (notes/assumptions/17.md). -/
inductive Fault
deriving DecidableEq, Repr

/-- Why `exec` gives a term no meaning. -/
inductive Refusal where
  /-- The arm of an instruction without a meaning would raise it; no arm does. Safe. -/
  | notModelled (mnemonic : String)
  /-- Raised by every meaning on a term that is no row of the opcode table (a mnemonic with a mode it does not have). The
  decoder never gives such a term, so no step raises it. Safe (notes/assumptions/15.md). -/
  | noSuchForm
deriving DecidableEq, Repr

/-- `Reset()` against a memory (R43, R270): the registers, flags and control fields at their reset values, `PC` from the reset
vector. Warm reset is the same operation on the current memory (R271). `A`, `X`, `Y` are the parameter `ResetAXY` (R44). -/
def State.resetFrom (mem : Contract) : State :=
  let lo := mem.read8 0xFFFC
  let hi := lo.2.read8 0xFFFD
  { pc := word hi.1 lo.1
    sp := 0xFD
    a := Config.resetA
    x := Config.resetX
    y := Config.resetY
    flags := Flags.unpack 0x24
    cycles := 0
    interrupt := .none
    stall := 0
    mem := hi.2
    bus := [.rd 0xFFFC lo.1, .rd 0xFFFD hi.1] }

/-- The machine right after reset, with plain RAM in which nothing is written (notes/assumptions/2.md,
notes/assumptions/10.md). -/
def State.reset : State := State.resetFrom Contract.plain

end Sys2Proof.Machine
end

