-- ==== Sys2Proof/Machine/Ops.lean ====
section
/-! DEFINITION. The named operations on registers, memory and stack (R11, R51 to R60), and the one operation that enters a
handler (R227, R248) with the return beside it (R225). -/

namespace Sys2Proof.Machine

/-- `A <- v`. -/
def State.setA (s : State) (v : Byte) : State := { s with a := v }

/-- `X <- v`. -/
def State.setX (s : State) (v : Byte) : State := { s with x := v }

/-- `Y <- v`. -/
def State.setY (s : State) (v : Byte) : State := { s with y := v }

/-- `SP <- v`. -/
def State.setSp (s : State) (v : Byte) : State := { s with sp := v }

/-- `PC <- w`. -/
def State.setPc (s : State) (w : Addr) : State := { s with pc := w }

/-- All eight flags at once. -/
def State.setFlags (s : State) (f : Flags) : State := { s with flags := f }

/-- `interrupt <- k`. -/
def State.setInterrupt (s : State) (k : Interrupt) : State := { s with interrupt := k }

/-- `stall <- n`. -/
def State.setStall (s : State) (n : Nat) : State := { s with stall := n }

/-- `Cycles <- Cycles + n`. -/
def State.addCycles (s : State) (n : Nat) : State := { s with cycles := s.cycles + n }

/-- Replace what is behind the contract. -/
def State.setMem (s : State) (m : Contract) : State := { s with mem := m }

/-- Replace the record of accesses. -/
def State.setBus (s : State) (l : List Access) : State := { s with bus := l }

/-- Record one more access (R281). -/
def State.note (s : State) (acc : Access) : State := s.setBus (s.bus ++ [acc])

/-- `SetZN(v)` (R34). -/
def State.setZN (s : State) (v : Byte) : State := s.setFlags (s.flags.setZN v)

/-- The byte `read8(addr)` would answer now (R51). -/
def State.byteAt (s : State) (addr : Addr) : Byte := (s.mem.read8 addr).1

/-- A `read8(addr)` that answers `v` takes place: the contract sees it, and it is recorded. -/
def State.noteRead (s : State) (addr : Addr) (v : Byte) : State := (s.setMem (s.mem.read8 addr).2).note (.rd addr v)

/-- `MemRead(addr, 1)` (R51): the byte, and the state after the read. -/
def State.memRead (s : State) (addr : Addr) : Byte × State := (s.byteAt addr, s.noteRead addr (s.byteAt addr))

/-- `MemWrite(addr, 1, v)` (R52). -/
def State.memWrite (s : State) (addr : Addr) (v : Byte) : State := (s.setMem (s.mem.write8 addr v)).note (.wr addr v)

/-- `MemRead(addr, 2)` (R53): low byte first; `addr + 1` wraps at 16 bits. -/
def State.memRead16 (s : State) (addr : Addr) : Addr × State :=
  let lo := s.memRead addr
  let hi := lo.2.memRead (addr + 1)
  (word hi.1 lo.1, hi.2)

/-- `Read16Bug(addr)` (R54): low byte first; the high byte does not leave the page of `addr`. -/
def State.memRead16Bug (s : State) (addr : Addr) : Addr × State :=
  let lo := s.memRead addr
  let hi := lo.2.memRead (bugNext addr)
  (word hi.1 lo.1, hi.2)

/-- The accesses of a list of requests take place, in order. -/
def State.makeRequests (s : State) : List Request → State
  | [] => s
  | .read addr :: rest => State.makeRequests (s.memRead addr).2 rest
  | .write addr v :: rest => State.makeRequests (s.memWrite addr v) rest

/-- `0x0100 | SP` (R24, R57). -/
def stackAddr (sp : Byte) : Addr := 0x0100 ||| zext sp

/-- `Push(v)` (R57). -/
def State.push (s : State) (v : Byte) : State := (s.memWrite (stackAddr s.sp) v).setSp (s.sp - 1)

/-- `Push16(w)` (R58): the high byte, then the low byte. -/
def State.push16 (s : State) (w : Addr) : State := (s.push (hiByte w)).push (loByte w)

/-- `Pull()` (R59). -/
def State.pull (s : State) : Byte × State := (s.setSp (s.sp + 1)).memRead (stackAddr (s.sp + 1))

/-- `Pull16()` (R60): the low byte, then the high byte. -/
def State.pull16 (s : State) : Addr × State :=
  let lo := s.pull
  let hi := lo.2.pull
  (word hi.1 lo.1, hi.2)

/-- Entering a handler, shared by `BRK` (R227) and the interrupt service (R248): push `PC`, push the given P byte, set `I`,
load `PC` from the vector. The P byte is packed by the caller, before `I` is set. -/
def State.enterHandler (s : State) (vector : Addr) (p : Byte) : State :=
  let pushed := (s.push16 s.pc).push p
  let masked := pushed.setFlags { pushed.flags with i := true }
  let target := masked.memRead16 vector
  target.2.setPc target.1

/-- The return from a handler (R225, R252): unpack the pulled P byte, then pull `PC`, with no adjustment. -/
def State.leaveHandler (s : State) : State :=
  let p := s.pull
  let target := (p.2.setFlags (Flags.unpack p.1)).pull16
  target.2.setPc target.1

end Sys2Proof.Machine
end

