-- ==== Sys2Proof/Machine/Operands.lean ====
section
/-! DEFINITION. The addressing-mode resolver (R86 to R100), the reading and writing of an operand (R120, R130), and the part of
a step that is the same for every instruction: resolve, advance `PC`, run the executor, add the cycles (R276, R277, R279). -/

namespace Sys2Proof.Machine

/-- What the resolver hands the executor (R86): the effective address, the page-crossed bit, and the operand, whose mode says
whether the accumulator is meant (R88) and which holds the operand byte of the Immediate mode (R89). -/
structure Resolved where
  operand : Operand
  ea : Addr
  crossed : Bool
deriving DecidableEq, Repr

/-- `crossed` (R94, R95, R96, R99): the two addresses have different high bytes. -/
def pageCrossed (origin ea : Addr) : Bool := hiByte ea != hiByte origin

/-- The resolver's read of the operand byte at `PC + k`, which the decoded instruction holds. -/
def State.readOperandByte (s : State) (k : Addr) (b : Byte) : State := s.noteRead (s.pc + k) b

/-- The resolver's read of the two operand bytes at `PC + 1` and `PC + 2` (R93). -/
def State.readOperandWord (s : State) (w : Addr) : State :=
  (s.readOperandByte 1 (loByte w)).readOperandByte 2 (hiByte w)

/-- The resolver (R86): it runs with `PC` at the opcode, reads memory as R87 to R99 write it and changes nothing but what
those reads change behind the contract, and the record of accesses. `ea` of Implied and Accumulator is unused (R87, R88). -/
def resolve (o : Operand) (s : State) : Resolved × State :=
  match o with
  | .imp => (⟨o, 0, false⟩, s)
  | .acc => (⟨o, 0, false⟩, s)
  | .imm _ => (⟨o, s.pc + 1, false⟩, s)
  | .zp base => (⟨o, zext base, false⟩, s.readOperandByte 1 base)
  | .zpx base => (⟨o, zext (base + s.x), false⟩, s.readOperandByte 1 base)
  | .zpy base => (⟨o, zext (base + s.y), false⟩, s.readOperandByte 1 base)
  | .abs base => (⟨o, base, false⟩, s.readOperandWord base)
  | .abx base => (⟨o, base + zext s.x, pageCrossed base (base + zext s.x)⟩, s.readOperandWord base)
  | .aby base => (⟨o, base + zext s.y, pageCrossed base (base + zext s.y)⟩, s.readOperandWord base)
  | .rel offset => (⟨o, s.pc + 2 + sext offset, pageCrossed (s.pc + 2) (s.pc + 2 + sext offset)⟩, s.readOperandByte 1 offset)
  | .ind pointer =>
    let target := (s.readOperandWord pointer).memRead16Bug pointer
    (⟨o, target.1, false⟩, target.2)
  | .izx pointer =>
    let target := (s.readOperandByte 1 pointer).memRead16 (zext (pointer + s.x))
    (⟨o, target.1, false⟩, target.2)
  | .izy pointer =>
    let base := (s.readOperandByte 1 pointer).memRead16 (zext pointer)
    (⟨o, base.1 + zext s.y, pageCrossed base.1 (base.1 + zext s.y)⟩, base.2)

/-- The operand of an executor (R120, R130): the accumulator with no access, the immediate byte (a read at `ea`), or the byte
at `ea`. -/
def State.readOperand (s : State) (r : Resolved) : Byte × State :=
  match r.operand with
  | .acc => (s.a, s)
  | .imm value => (value, s.noteRead r.ea value)
  | _ => s.memRead r.ea

/-- The result of a shift or rotate (R130): to the accumulator, or to the byte at `ea`. -/
def State.writeOperand (s : State) (r : Resolved) (v : Byte) : State :=
  match r.operand with
  | .acc => s.setA v
  | _ => s.memWrite r.ea v

/-- The routine of a mnemonic (R15): it sees the resolved operand and the state in which `PC` is already past the instruction
(R277). -/
abbrev Executor := Resolved → State → State

/-- How a meaning ends. -/
abbrev Result := Host.Outcome State Fault Refusal

/-- The page-crossing cost (R276, R279): added when the resolver reports a crossing and the descriptor declares a cost. -/
def pageCost (d : Descriptor) (crossed : Bool) : Nat := if crossed ∧ d.pageCycles ≠ 0 then d.pageCycles else 0

/-- Resolve, advance `PC` by the length, run the executor, add the base and page-crossing cycles (R276, R277, R279). -/
def perform (d : Descriptor) (o : Operand) (run : Executor) (s : State) : State :=
  let r := resolve o s
  let t := run r.1 (r.2.setPc (r.2.pc + BitVec.ofNat 16 d.length))
  (t.addCycles d.cycles).addCycles (pageCost d r.1.crossed)

/-- An instruction of the table is performed; a term that is no row of it is refused (notes/assumptions/15.md). -/
def runForm (d : Option Descriptor) (o : Operand) (run : Executor) (s : State) : Result :=
  match d with
  | some d => .next (perform d o run s)
  | none => .refused .noSuchForm

end Sys2Proof.Machine
end

