-- ==== Sys2Proof/Machine/Arithmetic.lean ====
section
/-! DEFINITION. Arithmetic and compare: ADC, SBC, CMP, CPX, CPY (40_arithmetic.md, R120 to R127). -/

namespace Sys2Proof.Machine

/-- `A + m + C` into `A`, with C, V, Z, N (R121); `D` is not read (R30). -/
def State.addToA (s : State) (m : Byte) : State :=
  (s.setA (adcResult s.a m s.flags.c)).setFlags (s.flags.afterAdc s.a m)

/-- `Compare(reg, m)` (R122). -/
def State.compareWith (s : State) (reg m : Byte) : State := s.setFlags (s.flags.afterCompare reg m)

/-- `ADC` (R121). -/
def execAdc (o : Operand) (s : State) : Result :=
  runForm (documentedDescriptor .adc o.mode) o (fun r t =>
    let m := t.readOperand r
    m.2.addToA m.1) s

/-- `SBC` (R123): add with carry against the 8-bit complement of the operand. -/
def execSbc (o : Operand) (s : State) : Result :=
  runForm (documentedDescriptor .sbc o.mode) o (fun r t =>
    let m := t.readOperand r
    m.2.addToA (m.1 ^^^ 0xFF)) s

/-- `CMP` (R124). -/
def execCmp (o : Operand) (s : State) : Result :=
  runForm (documentedDescriptor .cmp o.mode) o (fun r t =>
    let m := t.readOperand r
    m.2.compareWith m.2.a m.1) s

/-- `CPX` (R125). -/
def execCpx (o : Operand) (s : State) : Result :=
  runForm (documentedDescriptor .cpx o.mode) o (fun r t =>
    let m := t.readOperand r
    m.2.compareWith m.2.x m.1) s

/-- `CPY` (R126). -/
def execCpy (o : Operand) (s : State) : Result :=
  runForm (documentedDescriptor .cpy o.mode) o (fun r t =>
    let m := t.readOperand r
    m.2.compareWith m.2.y m.1) s

end Sys2Proof.Machine
end

