-- ==== Sys2Proof/Machine/Branch.lean ====
section
/-! DEFINITION. Conditional branches (43_branch.md, R150 to R159). -/

namespace Sys2Proof.Machine

/-- `Branch(cond)` (R150): if taken, `PC` becomes the effective address and `Cycles` grows by 1, by 1 more if the branch crossed
a page. The base cost is the descriptor's; its page cost is 0 (R101). -/
def branchExecutor (cond : Flags → Bool) : Executor := fun r t =>
  if cond t.flags then
    let taken := (t.setPc r.ea).addCycles 1
    if r.crossed then taken.addCycles 1 else taken
  else t

/-- `BCC` (R151): `Branch(C == 0)`. -/
def execBcc (offset : Byte) (s : State) : Result :=
  runForm (documentedDescriptor .bcc .rel) (.rel offset) (branchExecutor (fun f => !f.c)) s

/-- `BCS` (R152): `Branch(C == 1)`. -/
def execBcs (offset : Byte) (s : State) : Result :=
  runForm (documentedDescriptor .bcs .rel) (.rel offset) (branchExecutor (fun f => f.c)) s

/-- `BEQ` (R153): `Branch(Z == 1)`. -/
def execBeq (offset : Byte) (s : State) : Result :=
  runForm (documentedDescriptor .beq .rel) (.rel offset) (branchExecutor (fun f => f.z)) s

/-- `BNE` (R154): `Branch(Z == 0)`. -/
def execBne (offset : Byte) (s : State) : Result :=
  runForm (documentedDescriptor .bne .rel) (.rel offset) (branchExecutor (fun f => !f.z)) s

/-- `BPL` (R155): `Branch(N == 0)`. -/
def execBpl (offset : Byte) (s : State) : Result :=
  runForm (documentedDescriptor .bpl .rel) (.rel offset) (branchExecutor (fun f => !f.n)) s

/-- `BMI` (R156): `Branch(N == 1)`. -/
def execBmi (offset : Byte) (s : State) : Result :=
  runForm (documentedDescriptor .bmi .rel) (.rel offset) (branchExecutor (fun f => f.n)) s

/-- `BVC` (R157): `Branch(V == 0)`. -/
def execBvc (offset : Byte) (s : State) : Result :=
  runForm (documentedDescriptor .bvc .rel) (.rel offset) (branchExecutor (fun f => !f.v)) s

/-- `BVS` (R158): `Branch(V == 1)`. -/
def execBvs (offset : Byte) (s : State) : Result :=
  runForm (documentedDescriptor .bvs .rel) (.rel offset) (branchExecutor (fun f => f.v)) s

end Sys2Proof.Machine
end

