-- ==== Sys2Proof/Machine/FlagOps.lean ====
section
/-! DEFINITION. Flag set and clear (48_flag_ops.md, R215 to R221): exactly one flag each. -/

namespace Sys2Proof.Machine

/-- The shared shape: no access, one change of the flags. -/
def flagExecutor (f : Flags → Flags) : Executor := fun _ t => t.setFlags (f t.flags)

/-- `CLC` (R215): `C <- 0`. -/
def execClc (s : State) : Result :=
  runForm (documentedDescriptor .clc .imp) .imp (flagExecutor (fun f => { f with c := false })) s

/-- `SEC` (R216): `C <- 1`. -/
def execSec (s : State) : Result :=
  runForm (documentedDescriptor .sec .imp) .imp (flagExecutor (fun f => { f with c := true })) s

/-- `CLI` (R217): `I <- 0`. -/
def execCli (s : State) : Result :=
  runForm (documentedDescriptor .cli .imp) .imp (flagExecutor (fun f => { f with i := false })) s

/-- `SEI` (R218): `I <- 1`. -/
def execSei (s : State) : Result :=
  runForm (documentedDescriptor .sei .imp) .imp (flagExecutor (fun f => { f with i := true })) s

/-- `CLD` (R219): `D <- 0`. -/
def execCld (s : State) : Result :=
  runForm (documentedDescriptor .cld .imp) .imp (flagExecutor (fun f => { f with d := false })) s

/-- `SED` (R220): `D <- 1`. -/
def execSed (s : State) : Result :=
  runForm (documentedDescriptor .sed .imp) .imp (flagExecutor (fun f => { f with d := true })) s

/-- `CLV` (R221): `V <- 0`. -/
def execClv (s : State) : Result :=
  runForm (documentedDescriptor .clv .imp) .imp (flagExecutor (fun f => { f with v := false })) s

end Sys2Proof.Machine
end

