-- ==== Sys2Proof/Machine/IncDec.lean ====
section
/-! DEFINITION. Increments and decrements (47_incdec.md, R205 to R210). No C, no V. -/

namespace Sys2Proof.Machine

/-- The shared shape of INC and DEC (R205, R206): one read, one write of the same address, `SetZN`. -/
def stepMemoryExecutor (f : Byte → Byte) : Executor := fun r t =>
  let v := t.memRead r.ea
  (v.2.memWrite r.ea (f v.1)).setZN (f v.1)

/-- The shared shape of INX, INY, DEX, DEY (R207 to R210). -/
def stepRegisterExecutor (put : State → Byte → State) (reg : State → Byte) (f : Byte → Byte) : Executor := fun _ t =>
  (put t (f (reg t))).setZN (f (reg t))

/-- `INC` (R205). -/
def execInc (o : Operand) (s : State) : Result :=
  runForm (documentedDescriptor .inc o.mode) o (stepMemoryExecutor (fun v => v + 1)) s

/-- `DEC` (R206). -/
def execDec (o : Operand) (s : State) : Result :=
  runForm (documentedDescriptor .dec o.mode) o (stepMemoryExecutor (fun v => v - 1)) s

/-- `INX` (R207). -/
def execInx (s : State) : Result :=
  runForm (documentedDescriptor .inx .imp) .imp (stepRegisterExecutor State.setX State.x (fun v => v + 1)) s

/-- `INY` (R208). -/
def execIny (s : State) : Result :=
  runForm (documentedDescriptor .iny .imp) .imp (stepRegisterExecutor State.setY State.y (fun v => v + 1)) s

/-- `DEX` (R209). -/
def execDex (s : State) : Result :=
  runForm (documentedDescriptor .dex .imp) .imp (stepRegisterExecutor State.setX State.x (fun v => v - 1)) s

/-- `DEY` (R210). -/
def execDey (s : State) : Result :=
  runForm (documentedDescriptor .dey .imp) .imp (stepRegisterExecutor State.setY State.y (fun v => v - 1)) s

end Sys2Proof.Machine
end

