-- ==== Sys2Proof/Machine/Jump.lean ====
section
/-! DEFINITION. Jumps and subroutines: JSR, RTS, JMP (44_jump_subroutine.md, R165 to R168). -/

namespace Sys2Proof.Machine

/-- `JSR` (R165): push `PC - 1`, the address of the instruction's last byte, then jump. -/
def execJsr (target : Addr) (s : State) : Result :=
  runForm (documentedDescriptor .jsr .abs) (.abs target) (fun r t => (t.push16 (t.pc - 1)).setPc r.ea) s

/-- `RTS` (R166): pull a word, `PC` is the word plus 1. -/
def execRts (s : State) : Result :=
  runForm (documentedDescriptor .rts .imp) .imp (fun _ t =>
    let w := t.pull16
    w.2.setPc (w.1 + 1)) s

/-- `JMP` (R167): `PC` is the effective address, absolute or through the page-wrapping pointer. -/
def execJmp (o : Operand) (s : State) : Result :=
  runForm (documentedDescriptor .jmp o.mode) o (fun r t => t.setPc r.ea) s

end Sys2Proof.Machine
end

