-- ==== Sys2Proof/Machine/LoadStore.lean ====
section
/-! DEFINITION. Loads, stores and register transfers (46_load_store_transfer.md, R185 to R196). -/

namespace Sys2Proof.Machine

/-- The shared shape of the loads (R185 to R187): one read, the register, `SetZN`. -/
def loadExecutor (put : State → Byte → State) : Executor := fun r t =>
  let m := t.readOperand r
  (put m.2 m.1).setZN m.1

/-- The shared shape of the stores (R188 to R190): one write of `ea`, no read, no flag. -/
def storeExecutor (reg : State → Byte) : Executor := fun r t => t.memWrite r.ea (reg t)

/-- The shared shape of the transfers that set Z and N (R191 to R195). -/
def transferExecutor (put : State → Byte → State) (reg : State → Byte) : Executor := fun _ t =>
  (put t (reg t)).setZN (reg t)

/-- `LDA` (R185). -/
def execLda (o : Operand) (s : State) : Result :=
  runForm (documentedDescriptor .lda o.mode) o (loadExecutor State.setA) s

/-- `LDX` (R186). -/
def execLdx (o : Operand) (s : State) : Result :=
  runForm (documentedDescriptor .ldx o.mode) o (loadExecutor State.setX) s

/-- `LDY` (R187). -/
def execLdy (o : Operand) (s : State) : Result :=
  runForm (documentedDescriptor .ldy o.mode) o (loadExecutor State.setY) s

/-- `STA` (R188). -/
def execSta (o : Operand) (s : State) : Result :=
  runForm (documentedDescriptor .sta o.mode) o (storeExecutor State.a) s

/-- `STX` (R189). -/
def execStx (o : Operand) (s : State) : Result :=
  runForm (documentedDescriptor .stx o.mode) o (storeExecutor State.x) s

/-- `STY` (R190). -/
def execSty (o : Operand) (s : State) : Result :=
  runForm (documentedDescriptor .sty o.mode) o (storeExecutor State.y) s

/-- `TAX` (R191). -/
def execTax (s : State) : Result :=
  runForm (documentedDescriptor .tax .imp) .imp (transferExecutor State.setX State.a) s

/-- `TAY` (R192). -/
def execTay (s : State) : Result :=
  runForm (documentedDescriptor .tay .imp) .imp (transferExecutor State.setY State.a) s

/-- `TXA` (R193). -/
def execTxa (s : State) : Result :=
  runForm (documentedDescriptor .txa .imp) .imp (transferExecutor State.setA State.x) s

/-- `TYA` (R194). -/
def execTya (s : State) : Result :=
  runForm (documentedDescriptor .tya .imp) .imp (transferExecutor State.setA State.y) s

/-- `TSX` (R195). -/
def execTsx (s : State) : Result :=
  runForm (documentedDescriptor .tsx .imp) .imp (transferExecutor State.setX State.sp) s

/-- `TXS` (R196): the only transfer that leaves Z and N alone. -/
def execTxs (s : State) : Result :=
  runForm (documentedDescriptor .txs .imp) .imp (fun _ t => t.setSp t.x) s

end Sys2Proof.Machine
end

