-- ==== Sys2Proof/Machine/Logic.lean ====
section
/-! DEFINITION. Bit test and logic: BIT, AND, ORA, EOR (42_logical_bit.md, R140 to R143). -/

namespace Sys2Proof.Machine

/-- The shared shape of AND, ORA, EOR (R141 to R143): `A <- op A m`, then `SetZN(A)`. -/
def logicExecutor (op : Byte → Byte → Byte) : Executor := fun r t =>
  let m := t.readOperand r
  (m.2.setA (op m.2.a m.1)).setZN (op m.2.a m.1)

/-- `BIT` (R140). -/
def execBit (o : Operand) (s : State) : Result :=
  runForm (documentedDescriptor .bit o.mode) o (fun r t =>
    let m := t.readOperand r
    m.2.setFlags (m.2.flags.afterBit m.2.a m.1)) s

/-- `AND` (R141). -/
def execAnd (o : Operand) (s : State) : Result :=
  runForm (documentedDescriptor .and o.mode) o (logicExecutor (fun a m => a &&& m)) s

/-- `ORA` (R142). -/
def execOra (o : Operand) (s : State) : Result :=
  runForm (documentedDescriptor .ora o.mode) o (logicExecutor (fun a m => a ||| m)) s

/-- `EOR` (R143). -/
def execEor (o : Operand) (s : State) : Result :=
  runForm (documentedDescriptor .eor o.mode) o (logicExecutor (fun a m => a ^^^ m)) s

end Sys2Proof.Machine
end

