-- ==== Sys2Proof/Machine/Shift.lean ====
section
/-! DEFINITION. Shifts and rotates: ASL, LSR, ROL, ROR (41_shift_rotate.md, R130 to R135). -/

namespace Sys2Proof.Machine

/-- The shared shape (R130): read the operand, shift it, write it back to the same place, C from the bit shifted out, Z and N
from the result. `result` is given the operand and the prior carry; `outBit` is the number of the bit shifted out. -/
def shiftExecutor (outBit : Nat) (result : Byte → Bool → Byte) : Executor := fun r t =>
  let v := t.readOperand r
  let res := result v.1 v.2.flags.c
  (v.2.writeOperand r res).setFlags (v.2.flags.afterShift (bit v.1 outBit) res)

/-- `ASL` (R131). -/
def execAsl (o : Operand) (s : State) : Result :=
  runForm (documentedDescriptor .asl o.mode) o (shiftExecutor 7 (fun v _ => aslResult v)) s

/-- `LSR` (R132). -/
def execLsr (o : Operand) (s : State) : Result :=
  runForm (documentedDescriptor .lsr o.mode) o (shiftExecutor 0 (fun v _ => lsrResult v)) s

/-- `ROL` (R133). -/
def execRol (o : Operand) (s : State) : Result :=
  runForm (documentedDescriptor .rol o.mode) o (shiftExecutor 7 rolResult) s

/-- `ROR` (R134). -/
def execRor (o : Operand) (s : State) : Result :=
  runForm (documentedDescriptor .ror o.mode) o (shiftExecutor 0 rorResult) s

end Sys2Proof.Machine
end

