-- ==== Sys2Proof/Machine/Stack.lean ====
section
/-! DEFINITION. Stack instructions: PHP, PLP, PHA, PLA (45_stack_flags.md, R175 to R179). -/

namespace Sys2Proof.Machine

/-- `PHP` (R175): B and U are 1 in the pushed byte, the stored flags stay. -/
def execPhp (s : State) : Result :=
  runForm (documentedDescriptor .php .imp) .imp (fun _ t => t.push t.flags.softwarePushed) s

/-- `PLP` (R176). -/
def execPlp (s : State) : Result :=
  runForm (documentedDescriptor .plp .imp) .imp (fun _ t =>
    let p := t.pull
    p.2.setFlags (Flags.unpack p.1)) s

/-- `PHA` (R177). -/
def execPha (s : State) : Result :=
  runForm (documentedDescriptor .pha .imp) .imp (fun _ t => t.push t.a) s

/-- `PLA` (R178). -/
def execPla (s : State) : Result :=
  runForm (documentedDescriptor .pla .imp) .imp (fun _ t =>
    let v := t.pull
    (v.2.setA v.1).setZN v.1) s

end Sys2Proof.Machine
end

