-- ==== Sys2Proof/Machine/System.lean ====
section
/-! DEFINITION. RTI, NOP, BRK and the undocumented opcodes (49_system.md, R225 to R234). -/

namespace Sys2Proof.Machine

/-- `RTI` (R225). -/
def execRti (s : State) : Result :=
  runForm (documentedDescriptor .rti .imp) .imp (fun _ t => t.leaveHandler) s

/-- `NOP` (R226): nothing. -/
def execNop (s : State) : Result :=
  runForm (documentedDescriptor .nop .imp) .imp (fun _ t => t) s

/-- The IRQ vector, which `BRK` uses too (R67, R249). -/
def irqVector : Addr := 0xFFFE

/-- `BRK` (R227): the handler is entered through the IRQ vector with B and U forced to 1 in the pushed byte. `PC` is already
past the padding byte, which is never read. -/
def execBrk (_padding : Byte) (s : State) : Result :=
  runForm (documentedDescriptor .brk .imp) .imp (fun _ t => t.enterHandler irqVector t.flags.softwarePushed) s

/-- The executor of an undocumented opcode for a given effect (R232): the registers and flags are what the effect says, and the
accesses are the effect's, made on the memory `before` the instruction, so that the resolver's accesses are not taken to
happen. `PC` and `Cycles` are the engine's: "defined (cost, length)". `interrupt` and `stall` stay, as no instruction reads or
writes them (R38, R39; notes/assumptions/5.md). -/
def illegalExecutor (e : Config.IllegalEffect) (before : State) : Executor := fun _ t =>
  let made := before.makeRequests e.requests
  { t with a := e.a, x := e.x, y := e.y, sp := e.sp, flags := e.flags, mem := made.mem, bus := made.bus }

/-- An undocumented opcode with the effect `e`: an instance of the parameter `IllegalEffect` of R8. The page-crossed bit that
decides the page cost is resolved from X, Y and memory before the effect, as R86 and the text of R276 have the resolver before
the executor; the pseudocode of R276 calls `IllegalEffect(op)` before `Resolve`, and R232 does not say which. DESIGN CHOICE,
unsafe (notes/assumptions/23.md). -/
def runIllegal (e : Config.IllegalEffect) (op : Byte) (o : Operand) (s : State) : Result :=
  runForm (illegalDescriptor op o.mode) o (illegalExecutor e s) s

/-- The 105 undocumented opcodes (R232): length and cost as the descriptor says, everything R232 leaves open a FREE VALUE,
`Config.illegalEffect` of the opcode and the state (notes/assumptions/4.md). -/
def execIllegal (op : Byte) (o : Operand) (s : State) : Result := runIllegal (Config.illegalEffect op s) op o s

end Sys2Proof.Machine
end

