-- ==== Sys2Proof/WellFormed.lean ====
section
/-! DEFINITION. Which terms of `Instr` are instructions of the core: those that are a row of the opcode table. -/

namespace Sys2Proof

/-- The spec gives the mnemonic this addressing mode (R102, R103 and the family files). -/
def Mnemonic.admits (m : Mnemonic) (mode : Mode) : Bool := ((forms m).lookup mode).isSome

/-- The opcode byte is one of the 105 undocumented ones (R104). -/
def undocumented (op : Byte) : Bool := (descriptor op).mnemonic == .illegal

/-- A well-formed instruction: a documented mnemonic in a mode it has, or an undocumented opcode with an operand of its
descriptor's mode. -/
def Instr.wf : Instr → Bool
  | .illegal op o => undocumented op && (descriptor op).mode == o.mode
  | i => i.mnemonic.admits i.operand.mode

end Sys2Proof
end

