-- ==== Sys2Proof/Decode.lean ====
section
/-! DEFINITION. Decoding, total on any bytes, and the encoder, from the opcode table (R80 to R85, R102, R104) and the forms
of the family files. -/

namespace Sys2Proof

/-- Why a list of bytes holds no instruction. No opcode byte is rejected: all 256 have a descriptor (R82). -/
inductive DecodeError where
  /-- The list is empty. -/
  | noOpcode
  /-- The list ends before the operand bytes the opcode's descriptor asks for. -/
  | missingOperand
deriving DecidableEq, Repr

/-- The operand of a mode from the bytes after the opcode (R85): `b1` alone, or `b2:b1` little-endian. -/
def operandOf (mode : Mode) (b1 b2 : Byte) : Operand :=
  match mode with
  | .imp => .imp
  | .acc => .acc
  | .imm => .imm b1
  | .zp => .zp b1
  | .zpx => .zpx b1
  | .zpy => .zpy b1
  | .abs => .abs (Machine.word b2 b1)
  | .abx => .abx (Machine.word b2 b1)
  | .aby => .aby (Machine.word b2 b1)
  | .rel => .rel b1
  | .ind => .ind (Machine.word b2 b1)
  | .izx => .izx b1
  | .izy => .izy b1

/-- The instruction a descriptor and the two bytes after the opcode stand for. -/
def Descriptor.instr (d : Descriptor) (b1 b2 : Byte) : Instr :=
  match d.mnemonic with
  | .adc => .adc (operandOf d.mode b1 b2)
  | .sbc => .sbc (operandOf d.mode b1 b2)
  | .cmp => .cmp (operandOf d.mode b1 b2)
  | .cpx => .cpx (operandOf d.mode b1 b2)
  | .cpy => .cpy (operandOf d.mode b1 b2)
  | .asl => .asl (operandOf d.mode b1 b2)
  | .lsr => .lsr (operandOf d.mode b1 b2)
  | .rol => .rol (operandOf d.mode b1 b2)
  | .ror => .ror (operandOf d.mode b1 b2)
  | .bit => .bit (operandOf d.mode b1 b2)
  | .and => .and (operandOf d.mode b1 b2)
  | .ora => .ora (operandOf d.mode b1 b2)
  | .eor => .eor (operandOf d.mode b1 b2)
  | .bcc => .bcc b1
  | .bcs => .bcs b1
  | .beq => .beq b1
  | .bne => .bne b1
  | .bpl => .bpl b1
  | .bmi => .bmi b1
  | .bvc => .bvc b1
  | .bvs => .bvs b1
  | .jsr => .jsr (Machine.word b2 b1)
  | .rts => .rts
  | .jmp => .jmp (operandOf d.mode b1 b2)
  | .php => .php
  | .plp => .plp
  | .pha => .pha
  | .pla => .pla
  | .lda => .lda (operandOf d.mode b1 b2)
  | .ldx => .ldx (operandOf d.mode b1 b2)
  | .ldy => .ldy (operandOf d.mode b1 b2)
  | .sta => .sta (operandOf d.mode b1 b2)
  | .stx => .stx (operandOf d.mode b1 b2)
  | .sty => .sty (operandOf d.mode b1 b2)
  | .tax => .tax
  | .tay => .tay
  | .txa => .txa
  | .tya => .tya
  | .tsx => .tsx
  | .txs => .txs
  | .inc => .inc (operandOf d.mode b1 b2)
  | .dec => .dec (operandOf d.mode b1 b2)
  | .inx => .inx
  | .iny => .iny
  | .dex => .dex
  | .dey => .dey
  | .clc => .clc
  | .sec => .sec
  | .cli => .cli
  | .sei => .sei
  | .cld => .cld
  | .sed => .sed
  | .clv => .clv
  | .rti => .rti
  | .nop => .nop
  | .brk => .brk b1
  | .illegal => .illegal d.opcode (operandOf d.mode b1 b2)

/-- The instruction whose opcode byte is `op` and whose next two bytes are `b1` and `b2` (R82): "Every one of the 256 values of
byte 0 has an entry". An instruction shorter than three bytes does not look at the rest. -/
def decodeBytes (op b1 b2 : Byte) : Instr := (descriptor op).instr b1 b2

/-- Decode the first instruction of a list of bytes and give the bytes after it (R80 to R82). -/
def decode : List Byte → Except DecodeError (Instr × List Byte)
  | [] => .error .noOpcode
  | op :: rest =>
    match (descriptor op).length, rest with
    | 0, _ => .error .noOpcode
    | 1, _ => .ok (decodeBytes op 0 0, rest)
    | 2, b1 :: more => .ok (decodeBytes op b1 0, more)
    | _, b1 :: b2 :: more => .ok (decodeBytes op b1 b2, more)
    | _, _ => .error .missingOperand

/-- The operand bytes of an operand, in address order (R81, R85). -/
def Operand.bytes : Operand → List Byte
  | .imp => []
  | .acc => []
  | .imm b => [b]
  | .zp b => [b]
  | .zpx b => [b]
  | .zpy b => [b]
  | .abs w => [Machine.loByte w, Machine.hiByte w]
  | .abx w => [Machine.loByte w, Machine.hiByte w]
  | .aby w => [Machine.loByte w, Machine.hiByte w]
  | .rel b => [b]
  | .ind w => [Machine.loByte w, Machine.hiByte w]
  | .izx b => [b]
  | .izy b => [b]

/-- The bytes after the opcode: those of the operand, and for `BRK` its padding byte (R81, R227). -/
def Instr.operandBytes : Instr → List Byte
  | .brk padding => [padding]
  | i => i.operand.bytes

/-- The opcode byte of an instruction, from the family files' lists of forms; none for a term that is no instruction. -/
def Instr.opcode? : Instr → Option Byte
  | .illegal op o => if (Instr.illegal op o).wf then some op else none
  | i => (forms i.mnemonic).lookup i.operand.mode

/-- The bytes of a well-formed instruction: the opcode, then the operand bytes (R80, R81). -/
def encode (i : Instr) : Option (List Byte) := i.opcode?.map (fun op => op :: i.operandBytes)

/-- Byte `k` of an instruction whose bits are numbered as spec/opcode_table.json numbers them, the bits from `nbits` up being
0. -/
def tableByte (nbits w k : Nat) : Byte := BitVec.ofNat 8 ((w % 2 ^ nbits) / 2 ^ (8 * k))

/-- The instruction the decoder reads from the bits `w` of an opcode-table row. -/
def decodeTableWord (nbits w : Nat) : Option Instr :=
  match decode [tableByte nbits w 0, tableByte nbits w 1, tableByte nbits w 2] with
  | .ok (i, _) => some i
  | .error _ => none

end Sys2Proof
end

