-- ==== Sys2Proof/Machine/Interrupts.lean ====
section
/-! DEFINITION. The interrupt controller and the stall step (R242 to R250, R275): what a step does before it fetches. -/

namespace Sys2Proof.Machine

/-- The NMI vector (R67, R249). -/
def nmiVector : Addr := 0xFFFA

/-- The vector of the interrupt a step must service (R247): NMI always, IRQ when `I` is clear; none otherwise. -/
def State.pendingVector (s : State) : Option Addr :=
  match s.interrupt with
  | .none => none
  | .irq => if s.flags.i then none else some irqVector
  | .nmi => some nmiVector

/-- `Service(vector)` (R248): the handler is entered with B forced to 0 in the pushed byte, the request is cleared, 7 cycles. -/
def State.service (s : State) (vector : Addr) : State :=
  ((s.enterHandler vector s.flags.hardwarePushed).setInterrupt .none).addCycles 7

/-- `ServiceIfPending()` (R247). -/
def State.serviceIfPending (s : State) : State :=
  match s.pendingVector with
  | some vector => s.service vector
  | none => s

/-- A stall step (R275): one cycle, nothing fetched, nothing serviced, no access. -/
def State.stallStep (s : State) : State := ((s.setStall (s.stall - 1)).addCycles 1).setBus []

/-- The start of an instruction step (R276): the record of accesses begins anew, a pending interrupt is serviced. -/
def State.beginInstruction (s : State) : State := (s.setBus []).serviceIfPending

end Sys2Proof.Machine
end

