-- ==== Sys2Proof/Machine/Fetch.lean ====
section
/-! DEFINITION. Fetching an instruction (R62, R73, R81): from the same memory as data, at `PC`, `PC + 1`, `PC + 2` modulo
65536. -/

namespace Sys2Proof.Machine

/-- The opcode fetch, the one access of R281 item 2. -/
def State.fetchOpcode (s : State) : State := (s.memRead s.pc).2

/-- The bytes the contract answers when the opcode and then the operand bytes are read, in ascending order (R62). Which of the
operand reads take place, and when, is the resolver's and the executor's business (R281). -/
def State.fetchBytes (s : State) : List Byte :=
  let t := s.fetchOpcode
  [s.byteAt s.pc, t.byteAt (s.pc + 1), (t.memRead (s.pc + 1)).2.byteAt (s.pc + 2)]

/-- The instruction at `PC`. -/
def State.fetchInstr (s : State) : Instr :=
  let t := s.fetchOpcode
  decodeBytes (s.byteAt s.pc) (t.byteAt (s.pc + 1)) ((t.memRead (s.pc + 1)).2.byteAt (s.pc + 2))

/-- A byte placed where a fetch of it finds it: the address is plain RAM afterwards. -/
def Contract.placeByte (m : Contract) (addr : Addr) (v : Byte) : Contract := (m.makeRam addr).write8 addr v

/-- Place the three bytes of an instruction, numbered as the opcode table numbers them, where the next fetch reads. -/
def State.placeInstr (s : State) (nbits w : Nat) : State :=
  s.setMem (((s.mem.placeByte s.pc (tableByte nbits w 0)).placeByte (s.pc + 1) (tableByte nbits w 1)).placeByte (s.pc + 2)
    (tableByte nbits w 2))

end Sys2Proof.Machine
end

