-- ==== Sys2Proof/Machine/Step.lean ====
section
/-! DEFINITION. One step of the core (R274 to R280). -/

namespace Sys2Proof.Machine

/-- `step()` (R274): a stall step while `stall > 0` (R275), otherwise an instruction step (R276): service a pending interrupt,
fetch the opcode, run the instruction found at `PC`. -/
def step (s : State) : Host.Outcome State Fault Refusal :=
  if s.stall = 0 then exec s.beginInstruction.fetchInstr s.beginInstruction.fetchOpcode
  else .next s.stallStep

/-- What `step()` returns (R280): the growth of `Cycles` during the step. -/
def stepReturn (s : State) : Nat :=
  match step s with
  | .next t => t.cycles - s.cycles
  | .fault _ => 0
  | .refused _ => 0

/-- The instruction whose bits are `w`, stored where the next step fetches; no stall is owed and no interrupt is serviced
before it, so that the very next step runs it (notes/assumptions/10.md). -/
def State.withFetchWord (s : State) (nbits w : Nat) : State :=
  ((s.placeInstr nbits w).setStall 0).setInterrupt (if s.pendingVector.isSome then .none else s.interrupt)

end Sys2Proof.Machine
end

