-- ==== Sys2Proof/Machine/Environment.lean ====
section
/-! DEFINITION. What the environment may do between two steps (R273, R283): the exposed operations other than `step`, and the
use of memory by peripherals (R50). -/

namespace Sys2Proof.Machine

/-- `trigger_nmi()` (R243): unconditional. -/
def State.triggerNmi (s : State) : State := s.setInterrupt .nmi

/-- `trigger_irq()` (R244): unless an NMI is pending; `I` is not read. -/
def State.triggerIrq (s : State) : State :=
  match s.interrupt with
  | .nmi => s
  | .irq => s.setInterrupt .irq
  | .none => s.setInterrupt .irq

/-- `add_stall(cycles: u32)` (R284): adds to what is already owed. -/
def State.addStall (s : State) (n : BitVec 32) : State := s.setStall (s.stall + n.toNat)

/-- One action of the environment (R283). -/
inductive EnvAction where
  | triggerNmi
  | triggerIrq
  | addStall (cycles : BitVec 32)
  /-- The read of `Cycles` (R285): no side effect. -/
  | readCycles
  /-- A peripheral, DMA or the host reads memory through the contract (R50). -/
  | readMem (addr : Addr)
  /-- A peripheral, DMA or the host writes memory through the contract (R50). -/
  | writeMem (addr : Addr) (v : Byte)
  /-- The contract's `write16` (R50, R55; the order of its two byte writes: notes/assumptions/22.md). -/
  | writeMem16 (addr : Addr) (w : Addr)
  /-- Peripherals step: they change cells behind the contract, ROM among them, and their own state, as one event. -/
  | stepPeripherals (cells : List (Addr × Byte)) (event : Nat)
deriving DecidableEq, Repr

/-- The state after an action: `PC`, `SP`, `A`, `X`, `Y`, the flags and `Cycles` are never touched (R283). -/
def EnvAction.apply (act : EnvAction) (s : State) : State :=
  match act with
  | .triggerNmi => s.triggerNmi
  | .triggerIrq => s.triggerIrq
  | .addStall n => s.addStall n
  | .readCycles => s
  | .readMem addr => s.setMem (s.mem.read8 addr).2
  | .writeMem addr v => s.setMem (s.mem.write8 addr v)
  | .writeMem16 addr w => s.setMem (s.mem.write16 addr w)
  | .stepPeripherals cells event =>
    s.setMem ({ s.mem with cells := s.mem.cells.writeAll cells }.record (.event event))

end Sys2Proof.Machine
end

