-- ==== Sys2Proof/Safety.lean ====
section
/-! DEFINITION. The terms in which claims are stated: what an instruction costs, reads and accesses, what it leaves alone, the
memory invariant, and the states a run reaches with the environment acting between steps. -/

namespace Sys2Proof

/-- The byte length of an instruction, from its descriptor (R80, R101); 0 for a term that is no instruction. -/
def Instr.size (i : Instr) : Nat :=
  match i.descriptor? with
  | some d => d.length
  | none => 0

/-- The base cost and the page-crossing cost of an instruction in a state (R101, R279); a branch adds its penalties to it. -/
def Instr.cost (i : Instr) (s : Machine.State) : Nat :=
  match i.descriptor? with
  | some d => d.cycles + Machine.pageCost d (Machine.resolve i.operand s).1.crossed
  | none => 0

/-- The encodings the table gives a mnemonic: opcode byte, mode, base cost, page-crossing cost, in opcode order (the family
files' "Modes and encodings", where `4+` is base cost 4 and page-crossing cost 1). -/
def encodingsOf (m : Mnemonic) : List (Byte × Mode × Nat × Nat) :=
  (table.filter (fun d => d.mnemonic == m)).map (fun d => (d.opcode, d.mode, d.cycles, d.pageCycles))

namespace Machine

/-- The effective address of an operand (R86), by the resolver the meanings use. -/
def effectiveAddr (o : Operand) (s : State) : Addr := (resolve o s).1.ea

/-- The accesses `l` take place, in order (R50): the contract sees them, and they are recorded. -/
def State.access (s : State) (l : List Access) : State := { s with mem := s.mem.replay l, bus := s.bus ++ l }

/-- A read as an access. -/
def readOf (s : State) (addr : Addr) : Access := .rd addr (s.byteAt addr)

/-- The state after a read (R51). -/
def State.afterRead (s : State) (addr : Addr) : State := s.access [readOf s addr]

/-- The accesses of reads of these addresses, one after the other. -/
def readsFrom (s : State) : List Addr → List Access
  | [] => []
  | addr :: rest => readOf s addr :: readsFrom (s.afterRead addr) rest

/-- The resolver's reads of the operand bytes (R90 to R99). -/
def operandByteReads (o : Operand) (s : State) : List Access :=
  match o with
  | .imp | .acc | .imm _ => []
  | .zp b | .zpx b | .zpy b | .rel b | .izx b | .izy b => [.rd (s.pc + 1) b]
  | .abs w | .abx w | .aby w | .ind w => [.rd (s.pc + 1) (loByte w), .rd (s.pc + 2) (hiByte w)]

/-- The addresses of the pointer a mode reads next (R97, R98, R99). -/
def pointerAddrs (o : Operand) (s : State) : List Addr :=
  match o with
  | .ind w => [w, bugNext w]
  | .izx b => [zext (b + s.x), zext (b + s.x) + 1]
  | .izy b => [zext b, zext b + 1]
  | .imp | .acc | .imm _ | .zp _ | .zpx _ | .zpy _ | .abs _ | .abx _ | .aby _ | .rel _ => []

/-- The resolver's reads, by mode (R281 item 3). -/
def resolverAccesses (o : Operand) (s : State) : List Access :=
  operandByteReads o s ++ readsFrom (s.access (operandByteReads o s)) (pointerAddrs o s)

/-- The byte an executor reads as its operand (R120, R130, R89): the accumulator, the immediate byte, or the byte at the
effective address after the resolver's reads. -/
def operandValue (o : Operand) (s : State) : Byte :=
  match o with
  | .acc => s.a
  | .imm value => value
  | .imp | .zp _ | .zpx _ | .zpy _ | .abs _ | .abx _ | .aby _ | .rel _ | .ind _ | .izx _ | .izy _ =>
    (s.access (resolverAccesses o s)).byteAt (effectiveAddr o s)

/-- The executor's one read of its operand (R281 item 4): none in accumulator mode. -/
def operandAccesses (o : Operand) (s : State) : List Access :=
  if o = .acc then [] else [.rd (effectiveAddr o s) (operandValue o s)]

/-- What every instruction does beside its own effect (R276, R277, R279): `PC` past the instruction, the cost added, the
resolver's reads and then the accesses `more`. -/
def after (i : Instr) (s : State) (more : List Access) : State :=
  { s.access (resolverAccesses i.operand s ++ more) with
    pc := s.pc + BitVec.ofNat 16 i.size
    cycles := s.cycles + i.cost s }

/-- The flags with Z and N of a byte (R34), in plain terms. -/
def withZN (f : Flags) (v : Byte) : Flags := { f with z := decide (v.toNat = 0), n := decide (128 ≤ v.toNat) }

/-- The flags after a compare of `a` with `m` (R122), in plain terms. -/
def comparedFlags (f : Flags) (a m : Byte) : Flags :=
  { f with
    c := decide (m.toNat ≤ a.toNat)
    z := decide (a = m)
    n := decide (128 ≤ ((a.toNat : Int) - m.toNat) % 256) }

/-- The state after the shift or rotate `i` of the operand `o` (R130) whose result is `r` modulo 256 and whose bit shifted out is
`out`: in accumulator mode A is replaced and no access is made; in a memory mode the effective address is read once and
written once. -/
def shiftedState (i : Instr) (o : Operand) (s : State) (r : Nat) (out : Bool) : State :=
  let res := BitVec.ofNat 8 r
  let f := { withZN s.flags res with c := out }
  if o = .acc then { after i s [] with a := res, flags := f }
  else
    { after i s (operandAccesses o s ++ [.wr (effectiveAddr o s) res]) with flags := f }

/-- The state after a branch with the given offset (R150, R96, R279): taken, `PC` is the target and the cost 3, or 4 across a
page; not taken, `PC` is the following instruction and the cost 2. -/
def branchedState (s : State) (off : Byte) (taken : Bool) : State :=
  let next := s.pc + 2
  let target := next + off.signExtend 16
  { s.access [.rd (s.pc + 1) off] with
    pc := if taken then target else next
    cycles := s.cycles + if taken then (if target.toNat / 256 = next.toNat / 256 then 3 else 4) else 2 }

/-- The two addresses `Push16` stores to, high byte first (R57, R58). -/
def pushed16 (sp : Byte) : List Addr := [stackAddr sp, stackAddr (sp - 1)]

/-- Every byte but those of the stored addresses reads as before: every address that leads to a cell to which no stored address
leads (a mirror of a stored address has its cell). Which address leads to which cell is unchanged. What a device answers is
its own business (R51). -/
def sameBytesExcept (stored : List Addr) (s t : State) : Prop :=
  t.mem.windows = s.mem.windows ∧
  ∀ addr c, s.mem.cellAt addr = some c → (∀ a ∈ stored, s.mem.cellAt a ≠ some c) → t.byteAt addr = s.byteAt addr

/-- The control fields that no instruction writes (R38, R39). -/
def sameControl (s t : State) : Prop := t.interrupt = s.interrupt ∧ t.stall = s.stall

/-- From `s` to `t` the memory contract has seen exactly the accesses by which the record has grown (R50, R281). -/
def onlyAccessed (s t : State) : Prop := ∃ l, t.mem = s.mem.replay l ∧ t.bus = s.bus ++ l

/-- The invariant of the memory: the canonical form of its cells. -/
def State.canonical (s : State) : Prop := s.mem.wf = true

/-- The 256 addresses of the stack page are RAM, with a cell each. -/
def State.stackIsRam (s : State) : Prop :=
  ∃ cell : Byte → Addr, (∀ p q, cell p = cell q → p = q) ∧ ∀ p, s.mem.place (stackAddr p) = .cell (cell p) true

/-- The states of a run: reset over a canonical memory, steps, and actions of the environment between steps (R270, R283). -/
inductive Reachable : State → Prop where
  | reset (m : Contract) (h : m.wf = true) : Reachable (State.resetFrom m)
  | step (s t : State) (h : Reachable s) (hs : Machine.step s = .next t) : Reachable t
  | env (s : State) (act : EnvAction) (h : Reachable s) : Reachable (act.apply s)

end Machine

end Sys2Proof
end

