-- ==== Sys2Proof/Certificates/Slice0/Obligations.lean ====
section
/-! DEFINITION. The statements for the provers. A result is stated as ONE equation for the whole next state: what the record
update does not name is unchanged. `s.access l` is `s` after the accesses `l` to the memory contract (R50), which they reach in
that order and which says what they do there (ContractAnswersAccesses): memory changes by them alone. Where a rule lists
encodings with their costs, `encodingsOf` states them. `bus`, the record of the accesses of R281, is the model's own field
(notes/assumptions/8.md). -/

open Sys2Proof Sys2Proof.Machine

/-! ### Encoding -/

/-- Every well-formed instruction has bytes, and decoding them, whatever follows, gives the instruction back (R80 to R85). -/
def Obligations.WellFormedInstructionsRoundTrip : Prop :=
  ∀ i : Instr, i.wf = true → ∃ bytes, encode i = some bytes ∧ ∀ rest, decode (bytes ++ rest) = .ok (i, rest)

/-- The other direction: any three bytes decode to a well-formed instruction, described by the table's row of the opcode byte
(R82), and its encoding is exactly as many of them as that row says, unchanged; no bit of an operand, nor of the padding byte
of BRK, is dropped. -/
def Obligations.DecodingLosesNoBit : Prop :=
  ∀ op b1 b2 : Byte, let i := decodeBytes op b1 b2
    i.wf = true ∧ i.descriptor? = some (descriptor op) ∧ (descriptor op).opcode = op ∧
    encode i = some ([op, b1, b2].take (descriptor op).length)

/-- A few instructions written out byte by byte from R81, R85 and R102, with every family's shape among them. -/
def Obligations.SpelledOutBytesDecode : Prop :=
  decode [0x69, 0x01] = .ok (.adc (.imm 0x01), []) ∧
  decode [0x7D, 0xFF, 0x12] = .ok (.adc (.abx 0x12FF), []) ∧
  decode [0x76, 0xF0] = .ok (.ror (.zpx 0xF0), []) ∧
  decode [0x0A] = .ok (.asl .acc, []) ∧
  decode [0x41, 0x20] = .ok (.eor (.izx 0x20), []) ∧
  decode [0xD0, 0xFC] = .ok (.bne 0xFC, []) ∧
  decode [0x20, 0x34, 0x12] = .ok (.jsr 0x1234, []) ∧
  decode [0x6C, 0xFF, 0x02] = .ok (.jmp (.ind 0x02FF), []) ∧
  decode [0x08, 0x28] = .ok (.php, [0x28]) ∧
  decode [0x91, 0x10] = .ok (.sta (.izy 0x10), []) ∧
  decode [0x96, 0x10] = .ok (.stx (.zpy 0x10), []) ∧
  decode [0xBE, 0xFF, 0x12] = .ok (.ldx (.aby 0x12FF), []) ∧
  decode [0xCE, 0x00, 0x02] = .ok (.dec (.abs 0x0200), []) ∧
  decode [0x38] = .ok (.sec, []) ∧
  decode [0x00, 0xFF] = .ok (.brk 0xFF, []) ∧
  decode [0x1C, 0xFF, 0x12] = .ok (.illegal 0x1C (.abx 0x12FF), []) ∧
  decode [0xAD, 0x34] = .error .missingOperand

/-- R84: the length of a descriptor is that of its mode's format (one byte for IMP and ACC, three for ABS, ABX, ABY, IND, two
for the rest), for all 256 opcodes, except that BRK, of mode Implied, has length 2. R105: the documented descriptors with a
page-crossing cost of 1 are the read instructions ADC, AND, CMP, EOR, LDA, ORA, SBC in ABX, ABY, IZY, LDX in ABY and LDY in
ABX; every other documented descriptor, a branch's among them (R101), has 0. -/
def Obligations.LengthFollowsModeAndPageCostIsForReads : Prop :=
  ∀ op : Byte, let d := descriptor op
    (d.length =
      if d.mnemonic = .brk then 2
      else match d.mode with
        | .imp | .acc => 1
        | .abs | .abx | .aby | .ind => 3
        | .imm | .zp | .zpx | .zpy | .rel | .izx | .izy => 2) ∧
    (d.mnemonic ≠ .illegal → d.pageCycles =
      if (d.mnemonic ∈ [.adc, .and, .cmp, .eor, .lda, .ora, .sbc] ∧ d.mode ∈ [.abx, .aby, .izy]) ∨
          (d.mnemonic = .ldx ∧ d.mode = .aby) ∨ (d.mnemonic = .ldy ∧ d.mode = .abx)
      then 1 else 0)

/-- An instruction answers a next state exactly if it is a row of the opcode table (R240). That the undocumented opcodes are not
refused, as R232's recommended default has it, is the model's choice (notes/assumptions/4.md); so is that any other term is
refused by name (notes/assumptions/15.md). -/
def Obligations.EveryInstructionCompletes : Prop :=
  ∀ (i : Instr) (s : State), (i.wf = true → ∃ t, exec i s = .next t) ∧ (i.wf = false → exec i s = .refused .noSuchForm)

/-! ### The resolver -/

/-- R86: the resolver writes no state: it makes exactly the reads of R281 item 3, which change what they change behind the contract,
and nothing else. Implied, Accumulator and Immediate make none. -/
def Obligations.ResolverWritesNoState : Prop :=
  ∀ (o : Operand) (s : State), (resolve o s).2 = s.access (resolverAccesses o s) ∧
    (∀ acc ∈ resolverAccesses o s, ∃ addr v, acc = .rd addr v) ∧
    (o.mode = .imp ∨ o.mode = .acc ∨ o.mode = .imm → resolverAccesses o s = [] ∧ (resolve o s).1.crossed = false) ∧
    (∀ v, o = .imm v → (resolve o s).1.ea.toNat = (s.pc.toNat + 1) % 65536)

/-- R90, R91, R92: a zero-page address, indexed modulo 256, never crossing. -/
def Obligations.ZeroPageAddresses : Prop :=
  ∀ (b : Byte) (s : State),
    ((resolve (.zp b) s).1.ea.toNat = b.toNat ∧ (resolve (.zp b) s).1.crossed = false) ∧
    ((resolve (.zpx b) s).1.ea.toNat = (b.toNat + s.x.toNat) % 256 ∧ (resolve (.zpx b) s).1.crossed = false) ∧
    ((resolve (.zpy b) s).1.ea.toNat = (b.toNat + s.y.toNat) % 256 ∧ (resolve (.zpy b) s).1.crossed = false)

/-- R93, R94, R95: an absolute address, indexed modulo 65536; a page is crossed exactly if the addition changes the high byte,
equivalently if the low byte plus the index exceeds 255. -/
def Obligations.AbsoluteAddresses : Prop :=
  ∀ (w : Addr) (s : State),
    ((resolve (.abs w) s).1.ea = w ∧ (resolve (.abs w) s).1.crossed = false) ∧
    ((resolve (.abx w) s).1.ea.toNat = (w.toNat + s.x.toNat) % 65536 ∧
      (resolve (.abx w) s).1.crossed = decide ((resolve (.abx w) s).1.ea.toNat / 256 ≠ w.toNat / 256) ∧
      (resolve (.abx w) s).1.crossed = decide (255 < w.toNat % 256 + s.x.toNat)) ∧
    ((resolve (.aby w) s).1.ea.toNat = (w.toNat + s.y.toNat) % 65536 ∧
      (resolve (.aby w) s).1.crossed = decide ((resolve (.aby w) s).1.ea.toNat / 256 ≠ w.toNat / 256) ∧
      (resolve (.aby w) s).1.crossed = decide (255 < w.toNat % 256 + s.y.toNat))

/-- R96: the signed offset is added to the address of the following instruction, modulo 65536, and a page is crossed exactly if
the target's high byte differs from that address's. -/
def Obligations.RelativeAddresses : Prop :=
  ∀ (off : Byte) (s : State),
    ((resolve (.rel off) s).1.ea.toNat : Int) = ((s.pc.toNat : Int) + 2 + off.toInt) % 65536 ∧
    (resolve (.rel off) s).1.crossed =
      decide ((resolve (.rel off) s).1.ea.toNat / 256 ≠ (s.pc.toNat + 2) % 65536 / 256)

/-- R54, R97: after the reads of the operand bytes, the target's low byte is read at the pointer, then its high byte at the next
address within the pointer's page. -/
def Obligations.IndirectPointerStaysInItsPage : Prop :=
  ∀ (p : Addr) (s : State),
    let t := s.access [.rd (s.pc + 1) (loByte p), .rd (s.pc + 2) (hiByte p)]
    (resolve (.ind p) s).1.ea.toNat =
      ((t.afterRead p).byteAt (BitVec.ofNat 16 (p.toNat / 256 * 256 + (p.toNat + 1) % 256))).toNat * 256 +
        (t.byteAt p).toNat ∧
    (resolve (.ind p) s).1.crossed = false

/-- R98, R99: after the read of the operand byte, the zero-page pointer is read with ordinary little-endian reads, so that a pointer
at 0xFF takes its high byte from 0x0100; (Indirect,X) adds X to the pointer's address modulo 256, (Indirect),Y adds Y to the
word it holds, modulo 65536. -/
def Obligations.ZeroPagePointers : Prop :=
  ∀ (b : Byte) (s : State),
    let t := s.access [.rd (s.pc + 1) b]
    let wordAt (n : Nat) : Nat :=
      ((t.afterRead (BitVec.ofNat 16 n)).byteAt (BitVec.ofNat 16 (n + 1))).toNat * 256 + (t.byteAt (BitVec.ofNat 16 n)).toNat
    ((resolve (.izx b) s).1.ea.toNat = wordAt ((b.toNat + s.x.toNat) % 256) ∧
      (resolve (.izx b) s).1.crossed = false) ∧
    ((resolve (.izy b) s).1.ea.toNat = (wordAt b.toNat + s.y.toNat) % 65536 ∧
      (resolve (.izy b) s).1.crossed = decide ((resolve (.izy b) s).1.ea.toNat / 256 ≠ wordAt b.toNat / 256))

/-! ### Flags, memory, stack -/

/-- R31: the bit order of `Pack`, with bit 5 forced to 1. -/
def Obligations.PackPutsEachFlagInItsBit : Prop :=
  ∀ f : Flags, f.pack.toNat = f.c.toNat + 2 * f.z.toNat + 4 * f.i.toNat + 8 * f.d.toNat + 16 * f.b.toNat + 32 +
    64 * f.v.toNat + 128 * f.n.toNat

/-- R33: after `Unpack(f)`, `Pack()` is `f | 0x20`; and unpacking the packed flags keeps every flag except U, which is 1. -/
def Obligations.UnpackThenPackSetsBitFive : Prop :=
  (∀ p : Byte, (Flags.unpack p).pack = p ||| 0x20) ∧ (∀ f : Flags, Flags.unpack f.pack = { f with u := true })

/-- R36: the pushed P bytes. PHP and BRK push bits 4 and 5 as 1, an interrupt service pushes bit 4 as 0 and bit 5 as 1; the other
bits are the flags', and none comes from the stored B. -/
def Obligations.PushedFlagBytes : Prop :=
  ∀ f : Flags,
    f.softwarePushed = Flags.pack { f with b := true, u := true } ∧
    f.hardwarePushed = Flags.pack { f with b := false, u := true } ∧
    f.softwarePushed.toNat = f.hardwarePushed.toNat + 16

/-- R61: where the stack page is RAM and memory is canonical, a pull gives back what a push stored and restores SP, for a byte and
for a word, across the wrap of SP too; a word push leaves SP down by 2. -/
def Obligations.PullGivesBackWhatPushStored : Prop :=
  ∀ (s : State) (v : Byte) (w : Addr), s.canonical → s.stackIsRam →
    ((s.push v).pull.1 = v ∧ (s.push v).pull.2.sp = s.sp ∧ (s.push v).sp = s.sp - 1) ∧
    ((s.push16 w).pull16.1 = w ∧ (s.push16 w).pull16.2.sp = s.sp ∧ (s.push16 w).sp = s.sp - 2)

/-! ### Arithmetic and compare -/

/-- R121: ADC in integers. C is the carry out of the unsigned sum, V the signed overflow including the carry in, Z and N describe
the result; D is not read. -/
def Obligations.AdcAddsWithCarry : Prop :=
  encodingsOf .adc = [(0x61, .izx, 6, 0), (0x65, .zp, 3, 0), (0x69, .imm, 2, 0), (0x6D, .abs, 4, 0), (0x71, .izy, 5, 1),
    (0x75, .zpx, 4, 0), (0x79, .aby, 4, 1), (0x7D, .abx, 4, 1)] ∧
  (∀ (o : Operand) (s : State), Mnemonic.admits .adc o.mode = true →
    let m := operandValue o s
    let sum := s.a.toNat + m.toNat + s.flags.c.toNat
    let signed : Int := s.a.toInt + m.toInt + s.flags.c.toNat
    exec (.adc o) s = .next { after (.adc o) s (operandAccesses o s) with
      a := BitVec.ofNat 8 sum
      flags := { s.flags with
        c := decide (255 < sum)
        v := decide (signed < -128 ∨ 127 < signed)
        z := decide (sum % 256 = 0)
        n := decide (128 ≤ sum % 256) } })

/-- SBC in integers, as R123's "Consequences [derived: from this rule]" have it, an inference the spec marks as its own:
"`r = (A - m - (1 - C)) mod 256`; `C' = 1` exactly when `A - m - (1 - C) >= 0` as integers (no borrow); `V' = 1` exactly when the
signed result `sext_8(A) - sext_8(m) - (1 - C)` lies outside -128 .. 127". R123's rule itself adds the complement of m. -/
def Obligations.SbcSubtractsWithBorrow : Prop :=
  encodingsOf .sbc = [(0xE1, .izx, 6, 0), (0xE5, .zp, 3, 0), (0xE9, .imm, 2, 0), (0xED, .abs, 4, 0), (0xF1, .izy, 5, 1),
    (0xF5, .zpx, 4, 0), (0xF9, .aby, 4, 1), (0xFD, .abx, 4, 1)] ∧
  (∀ (o : Operand) (s : State), Mnemonic.admits .sbc o.mode = true →
    let m := operandValue o s
    let diff : Int := (s.a.toNat : Int) - m.toNat - (1 - s.flags.c.toNat)
    let signed : Int := s.a.toInt - m.toInt - (1 - s.flags.c.toNat)
    exec (.sbc o) s = .next { after (.sbc o) s (operandAccesses o s) with
      a := BitVec.ofInt 8 diff
      flags := { s.flags with
        c := decide (0 ≤ diff)
        v := decide (signed < -128 ∨ 127 < signed)
        z := decide (diff % 256 = 0)
        n := decide (128 ≤ diff % 256) } })

/-- R122, R124, R125, R126: CMP, CPX and CPY write C, Z, N from the register and the operand, and nothing else. -/
def Obligations.ComparesWriteCarryZeroNegative : Prop :=
  encodingsOf .cmp = [(0xC1, .izx, 6, 0), (0xC5, .zp, 3, 0), (0xC9, .imm, 2, 0), (0xCD, .abs, 4, 0), (0xD1, .izy, 5, 1),
    (0xD5, .zpx, 4, 0), (0xD9, .aby, 4, 1), (0xDD, .abx, 4, 1)] ∧
  encodingsOf .cpx = [(0xE0, .imm, 2, 0), (0xE4, .zp, 3, 0), (0xEC, .abs, 4, 0)] ∧
  encodingsOf .cpy = [(0xC0, .imm, 2, 0), (0xC4, .zp, 3, 0), (0xCC, .abs, 4, 0)] ∧
  (∀ (o : Operand) (s : State),
    (Mnemonic.admits .cmp o.mode = true → exec (.cmp o) s = .next { after (.cmp o) s (operandAccesses o s) with
      flags := comparedFlags s.flags s.a (operandValue o s) }) ∧
    (Mnemonic.admits .cpx o.mode = true → exec (.cpx o) s = .next { after (.cpx o) s (operandAccesses o s) with
      flags := comparedFlags s.flags s.x (operandValue o s) }) ∧
    (Mnemonic.admits .cpy o.mode = true → exec (.cpy o) s = .next { after (.cpy o) s (operandAccesses o s) with
      flags := comparedFlags s.flags s.y (operandValue o s) }))

/-- R30: the D flag never affects ADC or SBC: with D replaced, the same next state with D replaced. -/
def Obligations.DecimalFlagNeverAffectsArithmetic : Prop :=
  ∀ (o : Operand) (s t : State) (d : Bool),
    (exec (.adc o) s = .next t → exec (.adc o) { s with flags := { s.flags with d := d } } =
      .next { t with flags := { t.flags with d := d } }) ∧
    (exec (.sbc o) s = .next t → exec (.sbc o) { s with flags := { s.flags with d := d } } =
      .next { t with flags := { t.flags with d := d } })

/-! ### Shifts, logic -/

/-- R130 to R134: ASL doubles and LSR halves the operand, ROL and ROR rotate the nine bits of the carry and the operand; C is the
bit shifted out, Z and N describe the result. In accumulator mode no access is made; in a memory mode exactly one read and one
write of the effective address, and A stays. -/
def Obligations.ShiftsAndRotatesMoveOneBit : Prop :=
  encodingsOf .asl = [(0x06, .zp, 5, 0), (0x0A, .acc, 2, 0), (0x0E, .abs, 6, 0), (0x16, .zpx, 6, 0), (0x1E, .abx, 7, 0)] ∧
  encodingsOf .lsr = [(0x46, .zp, 5, 0), (0x4A, .acc, 2, 0), (0x4E, .abs, 6, 0), (0x56, .zpx, 6, 0), (0x5E, .abx, 7, 0)] ∧
  encodingsOf .rol = [(0x26, .zp, 5, 0), (0x2A, .acc, 2, 0), (0x2E, .abs, 6, 0), (0x36, .zpx, 6, 0), (0x3E, .abx, 7, 0)] ∧
  encodingsOf .ror = [(0x66, .zp, 5, 0), (0x6A, .acc, 2, 0), (0x6E, .abs, 6, 0), (0x76, .zpx, 6, 0), (0x7E, .abx, 7, 0)] ∧
  (∀ (o : Operand) (s : State),
    let v := (operandValue o s).toNat
    let c := s.flags.c.toNat
    (Mnemonic.admits .asl o.mode = true → exec (.asl o) s = .next (shiftedState (.asl o) o s (v * 2) (decide (128 ≤ v)))) ∧
    (Mnemonic.admits .lsr o.mode = true → exec (.lsr o) s = .next (shiftedState (.lsr o) o s (v / 2) (decide (v % 2 = 1)))) ∧
    (Mnemonic.admits .rol o.mode = true → exec (.rol o) s = .next (shiftedState (.rol o) o s (v * 2 + c) (decide (128 ≤ v)))) ∧
    (Mnemonic.admits .ror o.mode = true →
      exec (.ror o) s = .next (shiftedState (.ror o) o s (v / 2 + 128 * c) (decide (v % 2 = 1)))))

/-- R140: BIT sets Z from `A & m` and copies bits 7 and 6 of `m` to N and V; A, C and memory are unchanged. -/
def Obligations.BitTestsTheOperand : Prop :=
  encodingsOf .bit = [(0x24, .zp, 3, 0), (0x2C, .abs, 4, 0)] ∧
  (∀ (o : Operand) (s : State), Mnemonic.admits .bit o.mode = true →
    let m := operandValue o s
    exec (.bit o) s = .next { after (.bit o) s (operandAccesses o s) with
      flags := { s.flags with
        z := decide (s.a &&& m = 0)
        n := decide (128 ≤ m.toNat)
        v := decide (64 ≤ m.toNat % 128) } })

/-- R141, R142, R143: AND, ORA, EOR replace A and set Z and N; C and V are unchanged. -/
def Obligations.LogicInstructionsCombineWithA : Prop :=
  encodingsOf .and = [(0x21, .izx, 6, 0), (0x25, .zp, 3, 0), (0x29, .imm, 2, 0), (0x2D, .abs, 4, 0), (0x31, .izy, 5, 1),
    (0x35, .zpx, 4, 0), (0x39, .aby, 4, 1), (0x3D, .abx, 4, 1)] ∧
  encodingsOf .ora = [(0x01, .izx, 6, 0), (0x05, .zp, 3, 0), (0x09, .imm, 2, 0), (0x0D, .abs, 4, 0), (0x11, .izy, 5, 1),
    (0x15, .zpx, 4, 0), (0x19, .aby, 4, 1), (0x1D, .abx, 4, 1)] ∧
  encodingsOf .eor = [(0x41, .izx, 6, 0), (0x45, .zp, 3, 0), (0x49, .imm, 2, 0), (0x4D, .abs, 4, 0), (0x51, .izy, 5, 1),
    (0x55, .zpx, 4, 0), (0x59, .aby, 4, 1), (0x5D, .abx, 4, 1)] ∧
  (∀ (o : Operand) (s : State),
    let m := operandValue o s
    (Mnemonic.admits .and o.mode = true → exec (.and o) s = .next { after (.and o) s (operandAccesses o s) with
      a := s.a &&& m, flags := withZN s.flags (s.a &&& m) }) ∧
    (Mnemonic.admits .ora o.mode = true → exec (.ora o) s = .next { after (.ora o) s (operandAccesses o s) with
      a := s.a ||| m, flags := withZN s.flags (s.a ||| m) }) ∧
    (Mnemonic.admits .eor o.mode = true → exec (.eor o) s = .next { after (.eor o) s (operandAccesses o s) with
      a := s.a ^^^ m, flags := withZN s.flags (s.a ^^^ m) }))

/-! ### Branches and jumps -/

/-- R150 to R158: each branch tests its flag; taken, PC is the relative target and the step costs 3, or 4 across a page; not
taken, PC is the next instruction and it costs 2. No flag, register or byte changes. -/
def Obligations.BranchesTestTheirFlag : Prop :=
  encodingsOf .bcc = [(0x90, .rel, 2, 0)] ∧
  encodingsOf .bcs = [(0xB0, .rel, 2, 0)] ∧
  encodingsOf .bne = [(0xD0, .rel, 2, 0)] ∧
  encodingsOf .beq = [(0xF0, .rel, 2, 0)] ∧
  encodingsOf .bpl = [(0x10, .rel, 2, 0)] ∧
  encodingsOf .bmi = [(0x30, .rel, 2, 0)] ∧
  encodingsOf .bvc = [(0x50, .rel, 2, 0)] ∧
  encodingsOf .bvs = [(0x70, .rel, 2, 0)] ∧
  (∀ (off : Byte) (s : State),
    exec (.bcc off) s = .next (branchedState s off (!s.flags.c)) ∧ exec (.bcs off) s = .next (branchedState s off s.flags.c) ∧
    exec (.bne off) s = .next (branchedState s off (!s.flags.z)) ∧ exec (.beq off) s = .next (branchedState s off s.flags.z) ∧
    exec (.bpl off) s = .next (branchedState s off (!s.flags.n)) ∧ exec (.bmi off) s = .next (branchedState s off s.flags.n) ∧
    exec (.bvc off) s = .next (branchedState s off (!s.flags.v)) ∧ exec (.bvs off) s = .next (branchedState s off s.flags.v))

/-- R167: JMP sets PC to the effective address, the operand itself or the word at the pointer, whose high byte does not leave the
pointer's page, and writes nothing else. -/
def Obligations.JmpSetsPc : Prop :=
  encodingsOf .jmp = [(0x4C, .abs, 3, 0), (0x6C, .ind, 5, 0)] ∧
  (∀ (w : Addr) (s : State),
    let t := s.access [.rd (s.pc + 1) (loByte w), .rd (s.pc + 2) (hiByte w)]
    let high := BitVec.ofNat 16 (w.toNat / 256 * 256 + (w.toNat + 1) % 256)
    exec (.jmp (.abs w)) s = .next { t with pc := w, cycles := s.cycles + 3 } ∧
    exec (.jmp (.ind w)) s = .next { (t.afterRead w).afterRead high with
      pc := BitVec.ofNat 16 (((t.afterRead w).byteAt high).toNat * 256 + (t.byteAt w).toNat)
      cycles := s.cycles + 5 })

/-- R165, R166: JSR pushes the address of its own last byte, high byte first, and jumps; RTS pulls a word, low byte first, and
sets PC to the word plus 1. -/
def Obligations.JsrPushesAndRtsPulls : Prop :=
  encodingsOf .jsr = [(0x20, .abs, 6, 0)] ∧
  encodingsOf .rts = [(0x60, .imp, 6, 0)] ∧
  (∀ (target : Addr) (s : State),
    let ret := s.pc + 2
    let pullLo := stackAddr (s.sp + 1)
    let pullHi := stackAddr (s.sp + 2)
    let half := s.afterRead pullLo
    exec (.jsr target) s = .next { s.access [.rd (s.pc + 1) (loByte target), .rd (s.pc + 2) (hiByte target),
        .wr (stackAddr s.sp) (hiByte ret), .wr (stackAddr (s.sp - 1)) (loByte ret)] with
      pc := target
      sp := s.sp - 2
      cycles := s.cycles + 6 } ∧
    exec .rts s = .next { half.afterRead pullHi with
      pc := BitVec.ofNat 16 ((half.byteAt pullHi).toNat * 256 + (s.byteAt pullLo).toNat + 1)
      sp := s.sp + 2
      cycles := s.cycles + 6 })

/-- R168: where the stack page is RAM and memory is canonical, executing JSR and then, with the stack untouched, RTS restores PC to
the JSR's address plus 3, and SP. -/
def Obligations.RtsUndoesJsr : Prop :=
  ∀ (target : Addr) (s : State), s.canonical → s.stackIsRam → ∃ t u, exec (.jsr target) s = .next t ∧
    exec .rts t = .next u ∧
    u.pc = s.pc + 3 ∧ u.sp = s.sp ∧ u.a = s.a ∧ u.x = s.x ∧ u.y = s.y ∧ u.flags = s.flags

/-! ### Stack instructions -/

/-- R175, R177: PHP pushes the flags with bits 4 and 5 as 1, PHA pushes A; one byte at SP's address is written, SP goes down by
1, no flag changes. -/
def Obligations.PushesWriteOneStackByte : Prop :=
  encodingsOf .php = [(0x08, .imp, 3, 0)] ∧
  encodingsOf .pha = [(0x48, .imp, 3, 0)] ∧
  (∀ s : State,
    let p := Flags.pack { s.flags with b := true, u := true }
    exec .php s = .next { s.access [.wr (stackAddr s.sp) p] with pc := s.pc + 1, sp := s.sp - 1, cycles := s.cycles + 3 } ∧
    exec .pha s = .next { s.access [.wr (stackAddr s.sp) s.a] with
      pc := s.pc + 1, sp := s.sp - 1, cycles := s.cycles + 3 })

/-- R176, R178: PLP takes every flag from the pulled byte but U, which becomes 1; PLA takes A from it and sets Z and N. -/
def Obligations.PullsReadOneStackByte : Prop :=
  encodingsOf .plp = [(0x28, .imp, 4, 0)] ∧
  encodingsOf .pla = [(0x68, .imp, 4, 0)] ∧
  (∀ s : State,
    let addr := stackAddr (s.sp + 1)
    let v := s.byteAt addr
    exec .plp s = .next { s.access [.rd addr v] with
      pc := s.pc + 1, sp := s.sp + 1, flags := Flags.unpack v, cycles := s.cycles + 4 } ∧
    exec .pla s = .next { s.access [.rd addr v] with
      pc := s.pc + 1, sp := s.sp + 1, a := v, flags := withZN s.flags v, cycles := s.cycles + 4 })

/-- R179: where the stack page is RAM and memory is canonical, PHP and then PLP leave B at 1 (and U at 1) and every other flag as it
was. -/
def Obligations.PlpAfterPhpSetsOnlyBreak : Prop :=
  ∀ s : State, s.canonical → s.stackIsRam → ∃ t u, exec .php s = .next t ∧ exec .plp t = .next u ∧
    u.flags = { s.flags with b := true, u := true } ∧ u.sp = s.sp

/-! ### Loads, stores, transfers, increments, flag operations -/

/-- R185, R186, R187: LDA, LDX, LDY read one byte into the register and set Z and N. -/
def Obligations.LoadsReadOneByte : Prop :=
  encodingsOf .lda = [(0xA1, .izx, 6, 0), (0xA5, .zp, 3, 0), (0xA9, .imm, 2, 0), (0xAD, .abs, 4, 0), (0xB1, .izy, 5, 1),
    (0xB5, .zpx, 4, 0), (0xB9, .aby, 4, 1), (0xBD, .abx, 4, 1)] ∧
  encodingsOf .ldx = [(0xA2, .imm, 2, 0), (0xA6, .zp, 3, 0), (0xAE, .abs, 4, 0), (0xB6, .zpy, 4, 0), (0xBE, .aby, 4, 1)] ∧
  encodingsOf .ldy = [(0xA0, .imm, 2, 0), (0xA4, .zp, 3, 0), (0xAC, .abs, 4, 0), (0xB4, .zpx, 4, 0), (0xBC, .abx, 4, 1)] ∧
  (∀ (o : Operand) (s : State),
    let v := operandValue o s
    (Mnemonic.admits .lda o.mode = true → exec (.lda o) s = .next { after (.lda o) s (operandAccesses o s) with
      a := v, flags := withZN s.flags v }) ∧
    (Mnemonic.admits .ldx o.mode = true → exec (.ldx o) s = .next { after (.ldx o) s (operandAccesses o s) with
      x := v, flags := withZN s.flags v }) ∧
    (Mnemonic.admits .ldy o.mode = true → exec (.ldy o) s = .next { after (.ldy o) s (operandAccesses o s) with
      y := v, flags := withZN s.flags v }))

/-- R188, R189, R190: STA, STX, STY write the register at the effective address, read nothing there, and change no register and no
flag. -/
def Obligations.StoresWriteOneByte : Prop :=
  encodingsOf .sta = [(0x81, .izx, 6, 0), (0x85, .zp, 3, 0), (0x8D, .abs, 4, 0), (0x91, .izy, 6, 0), (0x95, .zpx, 4, 0),
    (0x99, .aby, 5, 0), (0x9D, .abx, 5, 0)] ∧
  encodingsOf .stx = [(0x86, .zp, 3, 0), (0x8E, .abs, 4, 0), (0x96, .zpy, 4, 0)] ∧
  encodingsOf .sty = [(0x84, .zp, 3, 0), (0x8C, .abs, 4, 0), (0x94, .zpx, 4, 0)] ∧
  (∀ (o : Operand) (s : State),
    let ea := effectiveAddr o s
    (Mnemonic.admits .sta o.mode = true →
      exec (.sta o) s = .next (after (.sta o) s [.wr ea s.a])) ∧
    (Mnemonic.admits .stx o.mode = true →
      exec (.stx o) s = .next (after (.stx o) s [.wr ea s.x])) ∧
    (Mnemonic.admits .sty o.mode = true →
      exec (.sty o) s = .next (after (.sty o) s [.wr ea s.y])))

/-- R191 to R196: the transfers copy a register; all set Z and N but TXS. They cost 2 and access no memory. -/
def Obligations.TransfersCopyARegister : Prop :=
  encodingsOf .tax = [(0xAA, .imp, 2, 0)] ∧
  encodingsOf .tay = [(0xA8, .imp, 2, 0)] ∧
  encodingsOf .txa = [(0x8A, .imp, 2, 0)] ∧
  encodingsOf .tya = [(0x98, .imp, 2, 0)] ∧
  encodingsOf .tsx = [(0xBA, .imp, 2, 0)] ∧
  encodingsOf .txs = [(0x9A, .imp, 2, 0)] ∧
  (∀ s : State,
    let moved : State := { s with pc := s.pc + 1, cycles := s.cycles + 2 }
    exec .tax s = .next { moved with x := s.a, flags := withZN s.flags s.a } ∧
    exec .tay s = .next { moved with y := s.a, flags := withZN s.flags s.a } ∧
    exec .txa s = .next { moved with a := s.x, flags := withZN s.flags s.x } ∧
    exec .tya s = .next { moved with a := s.y, flags := withZN s.flags s.y } ∧
    exec .tsx s = .next { moved with x := s.sp, flags := withZN s.flags s.sp } ∧
    exec .txs s = .next { moved with sp := s.x })

/-- R205, R206: INC and DEC read one byte, write it back plus or minus 1 modulo 256, and set Z and N; C and V are unchanged. -/
def Obligations.IncAndDecStepMemory : Prop :=
  encodingsOf .inc = [(0xE6, .zp, 5, 0), (0xEE, .abs, 6, 0), (0xF6, .zpx, 6, 0), (0xFE, .abx, 7, 0)] ∧
  encodingsOf .dec = [(0xC6, .zp, 5, 0), (0xCE, .abs, 6, 0), (0xD6, .zpx, 6, 0), (0xDE, .abx, 7, 0)] ∧
  (∀ (o : Operand) (s : State),
    let ea := effectiveAddr o s
    let v := operandValue o s
    let up := BitVec.ofNat 8 (v.toNat + 1)
    let down := BitVec.ofNat 8 (v.toNat + 255)
    (Mnemonic.admits .inc o.mode = true → exec (.inc o) s = .next { after (.inc o) s [.rd ea v, .wr ea up] with
      flags := withZN s.flags up }) ∧
    (Mnemonic.admits .dec o.mode = true → exec (.dec o) s = .next { after (.dec o) s [.rd ea v, .wr ea down] with
      flags := withZN s.flags down }))

/-- R207 to R210: INX, INY, DEX, DEY step their register modulo 256 and set Z and N. -/
def Obligations.RegisterStepsWrap : Prop :=
  encodingsOf .inx = [(0xE8, .imp, 2, 0)] ∧
  encodingsOf .iny = [(0xC8, .imp, 2, 0)] ∧
  encodingsOf .dex = [(0xCA, .imp, 2, 0)] ∧
  encodingsOf .dey = [(0x88, .imp, 2, 0)] ∧
  (∀ s : State,
    let moved : State := { s with pc := s.pc + 1, cycles := s.cycles + 2 }
    let up (r : Byte) : Byte := BitVec.ofNat 8 (r.toNat + 1)
    let down (r : Byte) : Byte := BitVec.ofNat 8 (r.toNat + 255)
    exec .inx s = .next { moved with x := up s.x, flags := withZN s.flags (up s.x) } ∧
    exec .iny s = .next { moved with y := up s.y, flags := withZN s.flags (up s.y) } ∧
    exec .dex s = .next { moved with x := down s.x, flags := withZN s.flags (down s.x) } ∧
    exec .dey s = .next { moved with y := down s.y, flags := withZN s.flags (down s.y) })

/-- R215 to R221: each flag instruction writes exactly its one flag. R226: NOP writes nothing. All advance PC by 1 and cost 2. -/
def Obligations.FlagInstructionsWriteOneFlagAndNopNone : Prop :=
  encodingsOf .clc = [(0x18, .imp, 2, 0)] ∧
  encodingsOf .sec = [(0x38, .imp, 2, 0)] ∧
  encodingsOf .cli = [(0x58, .imp, 2, 0)] ∧
  encodingsOf .sei = [(0x78, .imp, 2, 0)] ∧
  encodingsOf .cld = [(0xD8, .imp, 2, 0)] ∧
  encodingsOf .sed = [(0xF8, .imp, 2, 0)] ∧
  encodingsOf .clv = [(0xB8, .imp, 2, 0)] ∧
  encodingsOf .nop = [(0xEA, .imp, 2, 0)] ∧
  (∀ s : State,
    let moved (f : Flags) : State := { s with pc := s.pc + 1, cycles := s.cycles + 2, flags := f }
    exec .clc s = .next (moved { s.flags with c := false }) ∧ exec .sec s = .next (moved { s.flags with c := true }) ∧
    exec .cli s = .next (moved { s.flags with i := false }) ∧ exec .sei s = .next (moved { s.flags with i := true }) ∧
    exec .cld s = .next (moved { s.flags with d := false }) ∧ exec .sed s = .next (moved { s.flags with d := true }) ∧
    exec .clv s = .next (moved { s.flags with v := false }) ∧ exec .nop s = .next (moved s.flags))

/-! ### RTI, NOP, BRK, undocumented opcodes -/

/-- R225: RTI pulls the flags (U becomes 1), then PC, low byte first, with no adjustment. -/
def Obligations.RtiPullsFlagsThenPc : Prop :=
  encodingsOf .rti = [(0x40, .imp, 6, 0)] ∧
  (∀ s : State,
    let lo := stackAddr (s.sp + 2)
    let hi := stackAddr (s.sp + 3)
    let t := s.afterRead (stackAddr (s.sp + 1))
    let u := t.afterRead lo
    exec .rti s = .next { u.afterRead hi with
      flags := Flags.unpack (s.byteAt (stackAddr (s.sp + 1)))
      pc := BitVec.ofNat 16 ((u.byteAt hi).toNat * 256 + (t.byteAt lo).toNat)
      sp := s.sp + 3
      cycles := s.cycles + 6 })

/-- R227: BRK pushes the address past its padding byte and the P byte with bits 4 and 5 as 1, sets I, and loads PC from 0xFFFE as
memory is after the pushes; the stored B, the other flags and `interrupt` are unchanged; it costs 7. -/
def Obligations.BrkEntersTheIrqHandler : Prop :=
  encodingsOf .brk = [(0x00, .imp, 7, 0)] ∧
  (∀ (pad : Byte) (s : State),
    let ret := s.pc + 2
    let p := Flags.pack { s.flags with b := true, u := true }
    let pushed := s.access [.wr (stackAddr s.sp) (hiByte ret), .wr (stackAddr (s.sp - 1)) (loByte ret),
      .wr (stackAddr (s.sp - 2)) p]
    let half := pushed.afterRead 0xFFFE
    exec (.brk pad) s = .next { half.afterRead 0xFFFF with
      sp := s.sp - 3
      flags := { s.flags with i := true }
      pc := word (half.byteAt 0xFFFF) (pushed.byteAt 0xFFFE)
      cycles := s.cycles + 7 })

/-- R252, R225, R227: where the stack page is RAM and memory is canonical, RTI after BRK, with the stack untouched, returns past the
padding byte with every flag as it was, but B and U, which are 1. -/
def Obligations.RtiReturnsFromBrk : Prop :=
  ∀ (pad : Byte) (s : State), s.canonical → s.stackIsRam → ∃ t u, exec (.brk pad) s = .next t ∧ exec .rti t = .next u ∧
    u.pc = s.pc + 2 ∧ u.sp = s.sp ∧ u.flags = { s.flags with b := true, u := true } ∧ u.a = s.a ∧ u.x = s.x ∧ u.y = s.y

/-- R232: an undocumented opcode completes with its defined length and cost, whatever its effect is (that it completes is the
model's choice, notes/assumptions/4.md; R232's recommended default is to refuse); `interrupt` and `stall` stay (R38, R39;
notes/assumptions/5.md). That the crossing is that of the state before the effect is the model's choice
(notes/assumptions/23.md). Nothing is said of A, X, Y, SP, the flags, memory: their values are free. -/
def Obligations.UndocumentedOpcodesHaveLengthAndCost : Prop :=
  ∀ (op : Byte) (o : Operand) (s : State), (Instr.illegal op o).wf = true → ∃ t, exec (.illegal op o) s = .next t ∧
    t.pc = s.pc + BitVec.ofNat 16 (descriptor op).length ∧
    t.cycles = s.cycles + (descriptor op).cycles +
      (if (resolve o s).1.crossed = true ∧ (descriptor op).pageCycles = 1 then 1 else 0) ∧
    sameControl s t

/-! ### Frames over one byte of memory -/

/-- An instruction whose form stores nothing leaves every byte of memory as it was, all cells and every byte read from one: the
reads, compares, loads, branches, jumps, pulls, returns, transfers, register steps, flag operations, NOP, and the shifts in
accumulator mode. That a read changes no cell, and no access changes where an address leads, is the model's form of the contract
(notes/assumptions/1.md): R51 leaves to the contract what a read changes behind it. What a read does inside a device is the
device's business. -/
def Obligations.FormsThatStoreNothingKeepMemory : Prop :=
  ∀ (i : Instr) (s : State), i.wf = true →
    i.mnemonic ∉ [.sta, .stx, .sty, .inc, .dec, .pha, .php, .jsr, .brk, .illegal] →
    (i.mnemonic ∈ [.asl, .lsr, .rol, .ror] → i.operand = .acc) →
    ∃ t, exec i s = .next t ∧ sameBytesExcept [] s t ∧ t.mem.cells = s.mem.cells

/-- An instruction whose form stores one byte stores it at the effective address of its operand, and leaves every other byte, A,
X, Y, SP and the control fields as they were. That a write leaves other cells, and where an address leads, alone is the model's
form of the contract (notes/assumptions/1.md; R52 leaves what later reads answer to the contract). -/
def Obligations.StoringFormsChangeOneByte : Prop :=
  ∀ (i : Instr) (s : State), i.wf = true → s.canonical →
    i.mnemonic ∈ [.sta, .stx, .sty, .inc, .dec, .asl, .lsr, .rol, .ror] → i.operand ≠ .acc →
    ∃ t, exec i s = .next t ∧ sameBytesExcept [effectiveAddr i.operand s] s t ∧ sameControl s t ∧
      t.a = s.a ∧ t.x = s.x ∧ t.y = s.y ∧ t.sp = s.sp

/-- An instruction that pushes stores only in the stack page, at SP and below: one byte for PHA and PHP, two for JSR, three for
BRK; A, X, Y and the control fields are unchanged, and of the flags only I, which BRK sets. That every other byte reads as before
and every address leads where it did is the model's form of the contract (notes/assumptions/1.md; R52 leaves what later reads
answer to the contract). -/
def Obligations.PushingFormsChangeOnlyTheirStackBytes : Prop :=
  ∀ (s : State) (target : Addr) (pad : Byte), s.canonical →
    let keeps (t : State) : Prop := t.a = s.a ∧ t.x = s.x ∧ t.y = s.y ∧ sameControl s t
    (∃ t, exec .pha s = .next t ∧ sameBytesExcept [stackAddr s.sp] s t ∧ t.flags = s.flags ∧ t.sp = s.sp - 1 ∧ keeps t) ∧
    (∃ t, exec .php s = .next t ∧ sameBytesExcept [stackAddr s.sp] s t ∧ t.flags = s.flags ∧ t.sp = s.sp - 1 ∧ keeps t) ∧
    (∃ t, exec (.jsr target) s = .next t ∧ sameBytesExcept (pushed16 s.sp) s t ∧ t.flags = s.flags ∧ t.sp = s.sp - 2 ∧
      keeps t) ∧
    (∃ t, exec (.brk pad) s = .next t ∧ sameBytesExcept (pushed16 s.sp ++ [stackAddr (s.sp - 2)]) s t ∧
      t.flags = { s.flags with i := true } ∧ t.sp = s.sp - 3 ∧ keeps t)

/-! ### The step engine and the interrupts -/

/-- R276, R247: with no stall owed, a step services the pending interrupt if there is one to service (`beginInstruction`, see
InterruptDecision) and then, in the same step, runs exactly the instruction that the bytes at PC decode to, read in ascending
order; the opcode fetch is the first access after those of the service (R281). -/
def Obligations.StepRunsTheDecodedInstruction : Prop :=
  ∀ (s : State) (i : Instr) (rest : List Byte), s.stall = 0 →
    let begun := s.beginInstruction
    let fetched := begun.afterRead begun.pc
    let next := fetched.afterRead (begun.pc + 1)
    decode [begun.byteAt begun.pc, fetched.byteAt (begun.pc + 1), next.byteAt (begun.pc + 2)] = .ok (i, rest) →
    i.wf = true ∧ step s = exec i fetched

/-- R275: while stall is owed, a step takes one cycle off it, adds one cycle, returns 1, accesses nothing and changes nothing else:
an interrupt stays pending. -/
def Obligations.StallStepOnlyCountsDown : Prop :=
  ∀ s : State, 0 < s.stall →
    step s = .next { s with stall := s.stall - 1, cycles := s.cycles + 1, bus := [] } ∧ stepReturn s = 1

/-- R247: with no stall owed, NMI is serviced whatever I is, IRQ only if I is clear, through their vectors; otherwise nothing is
serviced and the request stays. -/
def Obligations.InterruptDecision : Prop :=
  ∀ s : State,
    (s.interrupt = .nmi → s.beginInstruction = { s with bus := [] }.service 0xFFFA) ∧
    (s.interrupt = .irq → s.flags.i = false → s.beginInstruction = { s with bus := [] }.service 0xFFFE) ∧
    (s.interrupt = .irq → s.flags.i = true → s.beginInstruction = { s with bus := [] }) ∧
    (s.interrupt = .none → s.beginInstruction = { s with bus := [] })

/-- R248: the service sequence pushes PC and the P byte with B as 0, sets I, loads PC from the vector as memory is after the pushes,
clears the request and adds 7 cycles; nothing else changes. -/
def Obligations.ServiceSequence : Prop :=
  ∀ (s : State) (vector : Addr),
    let p := Flags.pack { s.flags with b := false, u := true }
    let pushed := s.access [.wr (stackAddr s.sp) (hiByte s.pc), .wr (stackAddr (s.sp - 1)) (loByte s.pc),
      .wr (stackAddr (s.sp - 2)) p]
    let half := pushed.afterRead vector
    s.service vector = { half.afterRead (vector + 1) with
      sp := s.sp - 3
      flags := { s.flags with i := true }
      pc := word (half.byteAt (vector + 1)) (pushed.byteAt vector)
      interrupt := .none
      cycles := s.cycles + 7 }

/-- R252: where the stack page is RAM and memory is canonical, RTI after an interrupt service, with the stack untouched, returns to
the interrupted PC, with the interrupted flags but B (0) and U (1). -/
def Obligations.RtiReturnsFromInterrupt : Prop :=
  ∀ (s : State) (vector : Addr), s.canonical → s.stackIsRam → ∃ t, exec .rti (s.service vector) = .next t ∧
    t.pc = s.pc ∧ t.sp = s.sp ∧ t.flags = { s.flags with b := false, u := true } ∧ t.a = s.a ∧ t.x = s.x ∧ t.y = s.y

/-- R245: an IRQ masked by I stays pending through any step. For a step that runs an undocumented opcode this rests on the model's
deduction that it keeps `interrupt` (notes/assumptions/5.md). -/
def Obligations.MaskedIrqStaysPending : Prop :=
  ∀ s t : State, s.interrupt = .irq → s.flags.i = true → step s = .next t → t.interrupt = .irq

/-- R38, R39: no instruction writes `interrupt` or `stall`; for the undocumented opcodes this is the model's deduction
(notes/assumptions/5.md). -/
def Obligations.InstructionsKeepInterruptAndStall : Prop :=
  ∀ (i : Instr) (s t : State), exec i s = .next t → t.interrupt = s.interrupt ∧ t.stall = s.stall

/-- R287: no documented instruction reads `Cycles`: with more cycles on the counter, the same next state with as many more. -/
def Obligations.NoDocumentedInstructionReadsCycles : Prop :=
  ∀ (i : Instr) (s : State) (k : Nat), i.wf = true → i.mnemonic ≠ .illegal →
    ∃ t, exec i s = .next t ∧ exec i { s with cycles := s.cycles + k } = .next { t with cycles := t.cycles + k }

/-- R282: where no interrupt is to be serviced (a masked IRQ may be pending), a step at a JMP to itself adds 3 to Cycles and changes
nothing else but what the three fetches change behind the contract, and the model's record of them; if the three bytes are in
cells, no memory (that a read of a cell changes nothing is the model's form of the contract, notes/assumptions/1.md). -/
def Obligations.SelfJumpChangesOnlyCycles : Prop :=
  ∀ s : State, s.stall = 0 → s.pendingVector = none →
    let fetches : List Access := [.rd s.pc 0x4C, .rd (s.pc + 1) (loByte s.pc), .rd (s.pc + 2) (hiByte s.pc)]
    readsFrom s [s.pc, s.pc + 1, s.pc + 2] = fetches →
    step s = .next { s with cycles := s.cycles + 3, mem := s.mem.replay fetches, bus := fetches } ∧
    ((∀ k ∈ [s.pc, s.pc + 1, s.pc + 2], s.mem.cellAt k ≠ none) → s.mem.replay fetches = s.mem)

/-! ### Whole-machine claims -/

/-- R240, R282: the core raises no exception and has no halt: from every state a step answers a next state. That this holds of the
undocumented opcodes too is the model's choice (notes/assumptions/4.md; R232's recommended default is to refuse). -/
def Obligations.EveryStepAnswersANextState : Prop :=
  ∀ s : State, ∃ t, step s = .next t

/-- R50: a step changes memory only by the accesses it makes to the contract, which are those it records, in order (R70). So where
an address leads never changes, and the canonical form of memory (notes/assumptions/1.md and 2.md) is an invariant: every step
and every action of the environment keeps both. -/
def Obligations.StepsKeepMemoryCanonical : Prop :=
  (∀ s t : State, step s = .next t → t.mem = s.mem.replay t.bus ∧ t.mem.windows = s.mem.windows ∧
    (s.canonical → t.canonical)) ∧
  (∀ (s : State) (act : EnvAction), (act.apply s).mem.windows = s.mem.windows ∧ (s.canonical → (act.apply s).canonical))

/-- R279, R280: a step returns the growth of Cycles: 1 for a stall step; otherwise at least 2 and at most 14 if the instruction run
is a documented one. An undocumented opcode costs up to 8 (R104), so that the step may return 15; that it adds no cycles beyond
its cost is the model's deduction from R232 (notes/assumptions/5.md). -/
def Obligations.StepCostIsBounded : Prop :=
  ∀ s t : State, step s = .next t →
    t.cycles = s.cycles + stepReturn s ∧
    (0 < s.stall → stepReturn s = 1) ∧
    (s.stall = 0 → 2 ≤ stepReturn s ∧ stepReturn s ≤ 15 ∧
      (s.beginInstruction.fetchInstr.mnemonic ≠ .illegal → stepReturn s ≤ 14))

/-- R33: once 1, the stored U stays 1 through every step that runs a documented instruction (an undocumented one may leave any flag,
R232), and through the environment's actions. -/
def Obligations.StoredUStaysSet : Prop :=
  (∀ s t : State, s.flags.u = true → s.beginInstruction.fetchInstr.mnemonic ≠ .illegal ∨ 0 < s.stall →
  step s = .next t → t.flags.u = true) ∧
  (∀ (s : State) (act : EnvAction), s.flags.u = true → (act.apply s).flags.u = true)

/-- Every state that a run reaches, from a reset over any canonical memory (the form of notes/assumptions/1.md and 2.md) and with the
environment acting between steps, has canonical memory and a next state; Cycles grows (R40). That a state whose next opcode is
undocumented goes on is the model's choice (notes/assumptions/4.md; R232's recommended default is to refuse). -/
def Obligations.ReachableStatesAreCanonicalAndGoOn : Prop :=
  ∀ s : State, Reachable s → s.canonical ∧ ∃ t, step s = .next t ∧ s.cycles < t.cycles

/-! ### Reset and the environment -/

/-- R43: the reset values the spec states, over any memory: PC from the reset vector, SP, the flags, Cycles, interrupt, stall; memory
changes by the two reads of the vector alone, the low byte first (R270). -/
def Obligations.ResetValues : Prop :=
  ∀ m : Contract, let s := State.resetFrom m
    let low := m.read8 0xFFFC
    let high := low.2.read8 0xFFFD
    s.pc = word high.1 low.1 ∧ s.sp = 0xFD ∧ s.flags.pack = 0x24 ∧
    s.flags = { c := false, z := false, i := true, d := false, b := false, u := true, v := false, n := false } ∧
    s.cycles = 0 ∧ s.interrupt = .none ∧ s.stall = 0 ∧ s.mem = high.2

/-- The model's choices at reset (notes/assumptions/1.md, 2.md and 3.md): A, X, Y are 0, and State.reset is the reset over plain RAM
with nothing listed, which is canonical. -/
def Obligations.ResetChoices : Prop :=
  State.reset = State.resetFrom Contract.plain ∧ State.reset.canonical ∧ State.reset.a = 0 ∧ State.reset.x = 0 ∧
    State.reset.y = 0 ∧ ∀ addr, State.reset.byteAt addr = 0 ∧ State.reset.mem.place addr = .cell addr true

/-- R243, R244, R284, R285: `trigger_nmi` sets NMI unconditionally, `trigger_irq` sets IRQ unless NMI is pending, `add_stall` adds,
the read of Cycles has no side effect; each touches nothing else. R50, R55, R283: reads and writes of memory by the environment go
through the contract and change nothing else, so that no action touches PC, SP, A, X, Y, the flags or Cycles, and in canonical
memory (notes/assumptions/1.md and 2.md) every byte but those written reads as before. The spec gives `write16` no order and no
wrap: that it writes the low byte first and the high byte at `addr + 1` modulo 65536 is the model's choice
(notes/assumptions/22.md). Peripherals that step change cells and are one exchange (the form of that action is the model's,
notes/assumptions/9.md). -/
def Obligations.EnvironmentActions : Prop :=
  ∀ (s : State) (n : BitVec 32) (addr w : Addr) (v : Byte) (cells : List (Addr × Byte)) (event : Nat),
    EnvAction.triggerNmi.apply s = { s with interrupt := .nmi } ∧
    EnvAction.triggerIrq.apply s = (if s.interrupt = .nmi then s else { s with interrupt := .irq }) ∧
    (EnvAction.addStall n).apply s = { s with stall := s.stall + n.toNat } ∧
    EnvAction.readCycles.apply s = s ∧
    (EnvAction.readMem addr).apply s = { s with mem := (s.mem.read8 addr).2 } ∧
    (s.mem.cellAt addr ≠ none → (EnvAction.readMem addr).apply s = s) ∧
    (EnvAction.writeMem addr v).apply s = { s with mem := s.mem.write8 addr v } ∧
    (EnvAction.writeMem16 addr w).apply s =
      { s with mem := (s.mem.write8 addr (loByte w)).write8 (addr + 1) (hiByte w) } ∧
    (s.canonical → sameBytesExcept [addr] s ((EnvAction.writeMem addr v).apply s) ∧
      sameBytesExcept [addr, addr + 1] s ((EnvAction.writeMem16 addr w).apply s)) ∧
    (EnvAction.stepPeripherals cells event).apply s = { s with mem := { s.mem with
      cells := s.mem.cells.writeAll cells
      exchanges := .event event :: s.mem.exchanges } }

/-! ### The memory contract -/

/-- R51, R52, for each kind of place an address can lead to (the kinds are the model's choice, notes/assumptions/1.md). A read of a
cell answers it and changes nothing; a write to RAM is what that cell, and no other, holds afterwards; a write to ROM changes
nothing; a device sees the access, as its newest exchange, and no cell changes (its answer is a free value,
notes/assumptions/21.md). No access changes where an address leads. -/
def Obligations.ContractAnswersAccesses : Prop :=
  ∀ (m : Contract) (addr c other : Addr) (v : Byte), m.wf = true →
    (∀ writable, m.place addr = .cell c writable → m.read8 addr = (m.cells.read c, m)) ∧
    (m.place addr = .cell c true → (m.write8 addr v).cells.read other = (if other = c then v else m.cells.read other) ∧
      (m.write8 addr v).exchanges = m.exchanges) ∧
    (m.place addr = .cell c false → m.write8 addr v = m) ∧
    (m.place addr = .device → (m.read8 addr).2 = { m with exchanges := .access (.read addr) :: m.exchanges } ∧
      m.write8 addr v = { m with exchanges := .access (.write addr v) :: m.exchanges }) ∧
    (m.read8 addr).2.place other = m.place other ∧ (m.write8 addr v).place other = m.place other
end

