-- ==== Sys2Proof/Laws/Memory.lean ====
section
/-! SUPPORT. The laws of the memory: every write keeps the canonical form, and what a read gives after a write. -/

namespace Sys2Proof.Machine

theorem Memory.wfFrom_mono {lo lo' : Nat} (m : Memory) (h : lo' ≤ lo) (hm : Memory.wfFrom lo m = true) :
    Memory.wfFrom lo' m = true := by
  cases m with
  | nil => rfl
  | cons cell rest =>
    obtain ⟨k, v⟩ := cell
    simp only [Memory.wfFrom, Bool.and_eq_true, decide_eq_true_eq] at hm ⊢
    exact ⟨⟨⟨by omega, hm.1.1.2⟩, hm.1.2⟩, hm.2⟩

theorem Memory.wfFrom_cons {lo k : Nat} {v : Byte} {rest : Memory} (hk : lo ≤ k) (hk' : k < 65536)
    (h : Memory.wfFrom (k + 1) rest = true) : Memory.wfFrom lo (Memory.cons k v rest) = true := by
  unfold Memory.cons
  split
  · exact Memory.wfFrom_mono rest (by omega) h
  · rename_i hv
    simp [Memory.wfFrom, hk, hk', hv, h]

/-- A write at a key of the address space keeps the canonical form. -/
theorem Memory.wfFrom_writeKey {lo k : Nat} {v : Byte} (m : Memory) (hk : lo ≤ k) (hk' : k < 65536)
    (hm : Memory.wfFrom lo m = true) : Memory.wfFrom lo (m.writeKey k v) = true := by
  induction m generalizing lo with
  | nil => exact Memory.wfFrom_cons hk hk' rfl
  | cons cell rest ih =>
    obtain ⟨j, w⟩ := cell
    simp only [Memory.wfFrom, Bool.and_eq_true, decide_eq_true_eq] at hm
    obtain ⟨⟨⟨hj, hj'⟩, hw⟩, hrest⟩ := hm
    simp only [Memory.writeKey]
    split
    · refine Memory.wfFrom_cons hk hk' ?_
      simp [Memory.wfFrom, hj', hw, hrest]
      omega
    · split
      · subst k
        exact Memory.wfFrom_cons hj hj' hrest
      · simp [Memory.wfFrom, hj, hj', hw]
        exact ih (by omega) hrest

/-- A write keeps the canonical form. -/
theorem Memory.wf_write {m : Memory} (addr : Addr) (v : Byte) (hm : m.wf = true) : (m.write addr v).wf = true :=
  Memory.wfFrom_writeKey m (Nat.zero_le _) addr.isLt hm

/-- A list of writes keeps the canonical form. -/
theorem Memory.wf_writeAll (l : List (Addr × Byte)) {m : Memory} (hm : m.wf = true) : (m.writeAll l).wf = true := by
  induction l generalizing m with
  | nil => exact hm
  | cons p rest ih => exact ih (Memory.wf_write p.1 p.2 hm)

theorem Memory.readKey_below {lo k : Nat} (m : Memory) (hm : Memory.wfFrom lo m = true) (hk : k < lo) :
    m.readKey k = Memory.unlisted := by
  induction m generalizing lo with
  | nil => rfl
  | cons cell rest ih =>
    obtain ⟨j, w⟩ := cell
    simp only [Memory.wfFrom, Bool.and_eq_true, decide_eq_true_eq] at hm
    simp only [Memory.readKey]
    rw [if_neg (by omega)]
    exact ih hm.2 (by omega)

theorem Memory.readKey_cons {k j : Nat} {v : Byte} {rest : Memory} (h : Memory.wfFrom (k + 1) rest = true) :
    (Memory.cons k v rest).readKey j = if k = j then v else rest.readKey j := by
  unfold Memory.cons
  split
  · rename_i hv
    split
    · subst j
      rw [Memory.readKey_below rest h (by omega), hv]
    · rfl
  · rfl

/-- Reading after a write, by key. -/
theorem Memory.readKey_writeKey {lo k j : Nat} {v : Byte} (m : Memory) (hm : Memory.wfFrom lo m = true) :
    (m.writeKey k v).readKey j = if k = j then v else m.readKey j := by
  induction m generalizing lo with
  | nil => exact Memory.readKey_cons rfl
  | cons cell rest ih =>
    obtain ⟨i, w⟩ := cell
    simp only [Memory.wfFrom, Bool.and_eq_true, decide_eq_true_eq] at hm
    obtain ⟨⟨⟨hi, hi'⟩, hw⟩, hrest⟩ := hm
    simp only [Memory.writeKey]
    split
    · rw [Memory.readKey_cons (by simp [Memory.wfFrom, hi', hw, hrest]; omega)]
    · split
      · subst i
        rw [Memory.readKey_cons hrest]
        simp only [Memory.readKey]
        split <;> rfl
      · simp only [Memory.readKey, ih hrest]
        split
        · rw [if_neg (by omega)]
        · rfl

/-- The law of memory: a byte read after a write is the byte written at its address, and the old byte elsewhere. -/
theorem Memory.read_write {m : Memory} (hm : m.wf = true) (addr other : Addr) (v : Byte) :
    (m.write addr v).read other = if addr = other then v else m.read other := by
  unfold Memory.read Memory.write
  rw [Memory.readKey_writeKey m hm]
  simp only [BitVec.toNat_eq]

theorem Memory.read_write_same {m : Memory} (hm : m.wf = true) (addr : Addr) (v : Byte) :
    (m.write addr v).read addr = v := by
  rw [Memory.read_write hm, if_pos rfl]

theorem Memory.read_write_other {m : Memory} (hm : m.wf = true) {addr other : Addr} (v : Byte) (h : other ≠ addr) :
    (m.write addr v).read other = m.read other := by
  rw [Memory.read_write hm, if_neg (Ne.symm h)]

/-- Canonical memories are determined by what they read, by key. -/
theorem Memory.ext_from {lo : Nat} (m n : Memory) (hm : Memory.wfFrom lo m = true) (hn : Memory.wfFrom lo n = true)
    (h : ∀ k, k < 65536 → m.readKey k = n.readKey k) : m = n := by
  induction m generalizing n lo with
  | nil =>
    cases n with
    | nil => rfl
    | cons cell rest =>
      obtain ⟨k, v⟩ := cell
      simp only [Memory.wfFrom, Bool.and_eq_true, decide_eq_true_eq] at hn
      have hk := h k hn.1.1.2
      simp only [Memory.readKey, if_true] at hk
      exact absurd hk.symm hn.1.2
  | cons cell rest ih =>
    obtain ⟨k, v⟩ := cell
    have hm' := hm
    simp only [Memory.wfFrom, Bool.and_eq_true, decide_eq_true_eq] at hm
    cases n with
    | nil =>
      have hk := h k hm.1.1.2
      simp only [Memory.readKey, if_true] at hk
      exact absurd hk hm.1.2
    | cons cell' rest' =>
      obtain ⟨j, w⟩ := cell'
      have hn' := hn
      simp only [Memory.wfFrom, Bool.and_eq_true, decide_eq_true_eq] at hn
      have hkj : k = j := by
        rcases Nat.lt_trichotomy k j with hlt | heq | hgt
        · have hk := h k hm.1.1.2
          rw [Memory.readKey_below (lo := j) ((j, w) :: rest') (by simp [Memory.wfFrom, hn]) hlt] at hk
          simp only [Memory.readKey, if_true] at hk
          exact absurd hk hm.1.2
        · exact heq
        · have hk := h j hn.1.1.2
          rw [Memory.readKey_below (lo := k) ((k, v) :: rest) (by simp [Memory.wfFrom, hm]) hgt] at hk
          simp only [Memory.readKey, if_true] at hk
          exact absurd hk.symm hn.1.2
      subst j
      have hv := h k hm.1.1.2
      simp only [Memory.readKey, if_true] at hv
      subst w
      rw [ih rest' hm.2 hn.2 fun i hi => ?_]
      have hik := h i hi
      simp only [Memory.readKey] at hik
      by_cases hki : k = i
      · subst i
        rw [Memory.readKey_below rest hm.2 (by omega), Memory.readKey_below rest' hn.2 (by omega)]
      · simpa only [if_neg hki] using hik

/-- Two canonical memories that read the same everywhere are the same data. -/
theorem Memory.ext_of_read {m n : Memory} (hm : m.wf = true) (hn : n.wf = true) (h : ∀ addr, m.read addr = n.read addr) :
    m = n :=
  Memory.ext_from m n hm hn fun k hk => by
    have := h (BitVec.ofNat 16 k)
    simpa [Memory.read, Nat.mod_eq_of_lt hk] using this

/-- The empty memory is canonical. -/
theorem Memory.wf_nil : Memory.wf [] = true := rfl

end Sys2Proof.Machine
end

