-- ==== Sys2Proof/Laws/Contract.lean ====
section
/-! SUPPORT. The laws of the contract: what `read8` and `write8` do for each kind of place, and what every sequence of accesses
keeps. -/

namespace Sys2Proof.Machine

/-- Where an address leads is the windows' matter alone. -/
theorem Contract.place_congr {m n : Contract} (h : n.windows = m.windows) (addr : Addr) : n.place addr = m.place addr := by
  rw [Contract.place, h, Contract.place]

theorem Contract.cellAt_congr {m n : Contract} (h : n.windows = m.windows) (addr : Addr) :
    n.cellAt addr = m.cellAt addr := by
  rw [Contract.cellAt, Contract.place_congr h, Contract.cellAt]

theorem Contract.cellAt_eq_some {m : Contract} {addr c : Addr} :
    m.cellAt addr = some c ↔ ∃ w, m.place addr = .cell c w := by
  unfold Contract.cellAt
  cases m.place addr <;> simp

/-- A read of a cell answers it and changes nothing. -/
theorem Contract.read8_of_cell {m : Contract} {addr c : Addr} {w : Bool} (h : m.place addr = .cell c w) :
    m.read8 addr = (m.cells.read c, m) := by
  simp [Contract.read8, h]

theorem Contract.read8_of_cellAt {m : Contract} {addr c : Addr} (h : m.cellAt addr = some c) :
    m.read8 addr = (m.cells.read c, m) :=
  let ⟨_, hw⟩ := Contract.cellAt_eq_some.1 h
  Contract.read8_of_cell hw

/-- A read of a device answers the free value, and the device sees it. -/
theorem Contract.read8_of_device {m : Contract} {addr : Addr} (h : m.place addr = .device) :
    m.read8 addr = (Config.deviceByte m addr, m.record (.access (.read addr))) := by
  simp [Contract.read8, h]

theorem Contract.write8_of_ram {m : Contract} {addr c : Addr} (v : Byte) (h : m.place addr = .cell c true) :
    m.write8 addr v = { m with cells := m.cells.write c v } := by
  simp [Contract.write8, h]

theorem Contract.write8_of_rom {m : Contract} {addr c : Addr} (v : Byte) (h : m.place addr = .cell c false) :
    m.write8 addr v = m := by
  simp [Contract.write8, h]

theorem Contract.write8_of_device {m : Contract} {addr : Addr} (v : Byte) (h : m.place addr = .device) :
    m.write8 addr v = m.record (.access (.write addr v)) := by
  simp [Contract.write8, h]

@[simp] theorem Contract.read8_windows (m : Contract) (addr : Addr) : (m.read8 addr).2.windows = m.windows := by
  unfold Contract.read8
  split <;> rfl

@[simp] theorem Contract.read8_cells (m : Contract) (addr : Addr) : (m.read8 addr).2.cells = m.cells := by
  unfold Contract.read8
  split <;> rfl

@[simp] theorem Contract.write8_windows (m : Contract) (addr : Addr) (v : Byte) :
    (m.write8 addr v).windows = m.windows := by
  unfold Contract.write8
  split <;> rfl

@[simp] theorem Contract.replay_nil (m : Contract) : m.replay [] = m := rfl

@[simp] theorem Contract.replay_rd (m : Contract) (addr : Addr) (v : Byte) (l : List Access) :
    m.replay (.rd addr v :: l) = (m.read8 addr).2.replay l := rfl

@[simp] theorem Contract.replay_wr (m : Contract) (addr : Addr) (v : Byte) (l : List Access) :
    m.replay (.wr addr v :: l) = (m.write8 addr v).replay l := rfl

theorem Contract.replay_append (m : Contract) (l l' : List Access) : m.replay (l ++ l') = (m.replay l).replay l' := by
  induction l generalizing m with
  | nil => rfl
  | cons acc rest ih => cases acc <;> exact ih _

@[simp] theorem Contract.replay_windows (m : Contract) (l : List Access) : (m.replay l).windows = m.windows := by
  induction l generalizing m with
  | nil => rfl
  | cons acc rest ih => cases acc <;> simp [ih]

/-- A read keeps the canonical form. -/
theorem Contract.read8_wf {m : Contract} (addr : Addr) (h : m.wf = true) : (m.read8 addr).2.wf = true := by
  rw [Contract.wf, Contract.read8_cells]
  exact h

/-- A write keeps the canonical form. -/
theorem Contract.write8_wf {m : Contract} (addr : Addr) (v : Byte) (h : m.wf = true) : (m.write8 addr v).wf = true := by
  unfold Contract.write8
  split
  · exact Memory.wf_write _ v h
  · exact h
  · exact h

/-- `write16` keeps the canonical form. -/
theorem Contract.write16_wf {m : Contract} (addr w : Addr) (h : m.wf = true) : (m.write16 addr w).wf = true :=
  Contract.write8_wf _ _ (Contract.write8_wf _ _ h)

/-- Any sequence of accesses keeps the canonical form. -/
theorem Contract.replay_wf {m : Contract} (l : List Access) (h : m.wf = true) : (m.replay l).wf = true := by
  induction l generalizing m with
  | nil => exact h
  | cons acc rest ih =>
    cases acc with
    | rd addr v => exact ih (Contract.read8_wf addr h)
    | wr addr v => exact ih (Contract.write8_wf addr v h)

/-- A placed byte keeps the canonical form. -/
theorem Contract.makeRam_wf {m : Contract} (addr : Addr) (h : m.wf = true) : (m.makeRam addr).wf = true := by
  unfold Contract.makeRam
  split <;> exact h

/-- The law of memory: after a write a cell holds the byte written if the address leads to it and it is RAM, and what it held
otherwise. -/
theorem Contract.write8_cell {m : Contract} (hm : m.wf = true) (addr c : Addr) (v : Byte) :
    (m.write8 addr v).cells.read c = if m.place addr = .cell c true then v else m.cells.read c := by
  unfold Contract.write8
  split <;> rename_i h
  · simp only [h, Place.cell.injEq, and_true]
    exact Memory.read_write hm _ c v
  · simp [h]
  · simp [h, Contract.record]

/-- A cell to which no write of the sequence leads holds what it held. -/
theorem Contract.replay_cell {m : Contract} (hm : m.wf = true) {l : List Access} {c : Addr}
    (h : ∀ addr v, Access.wr addr v ∈ l → m.cellAt addr ≠ some c) : (m.replay l).cells.read c = m.cells.read c := by
  induction l generalizing m with
  | nil => rfl
  | cons acc rest ih =>
    cases acc with
    | rd addr v =>
      rw [Contract.replay_rd, ih (Contract.read8_wf addr hm), Contract.read8_cells]
      intro a w ha
      rw [Contract.cellAt_congr (Contract.read8_windows m addr)]
      exact h a w (.tail _ ha)
    | wr addr v =>
      rw [Contract.replay_wr, ih (Contract.write8_wf addr v hm), Contract.write8_cell hm, if_neg]
      · exact fun hp => h addr v (.head _) (Contract.cellAt_eq_some.2 ⟨_, hp⟩)
      · intro a w ha
        rw [Contract.cellAt_congr (Contract.write8_windows m addr v)]
        exact h a w (.tail _ ha)

end Sys2Proof.Machine
end

