-- ==== Sys2Proof/Laws/Decode.lean ====
section
/-! SUPPORT. The opcode table against the family files' lists of forms: two transcriptions of the spec, checked against each
other. -/

namespace Sys2Proof

/-- Row `op` of the table is the descriptor of the opcode byte `op` (R82). -/
theorem descriptor_opcode : ∀ op : Byte, (descriptor op).opcode = op := by
  decide +kernel

/-- A documented row of the table is a form of its mnemonic in the family files. -/
theorem documented_form : ∀ op : Byte, (descriptor op).mnemonic ≠ .illegal →
    (forms (descriptor op).mnemonic).lookup (descriptor op).mode = some op := by
  decide +kernel

/-- A form of the family files is the row of the table at its opcode. -/
theorem forms_sound {m : Mnemonic} {mode : Mode} {op : Byte} (h : (forms m).lookup mode = some op) :
    (descriptor op).mnemonic = m ∧ (descriptor op).mode = mode := by
  cases m <;> cases mode <;> first | (cases h; decide) | (cases h)

/-- Splitting a 16-bit value into bytes and joining them gives it back (R9, R10). -/
theorem word_hiByte_loByte (w : Addr) : Machine.word (Machine.hiByte w) (Machine.loByte w) = w := by
  apply BitVec.eq_of_toNat_eq
  simp [Machine.word, Machine.hiByte, Machine.loByte, BitVec.toNat_setWidth, BitVec.toNat_ushiftRight]
  have := w.isLt
  omega

/-- The low byte of a joined word. -/
theorem loByte_word (hi lo : Byte) : Machine.loByte (Machine.word hi lo) = lo := by
  apply BitVec.eq_of_toNat_eq
  simp [Machine.word, Machine.loByte]
  have := lo.isLt
  omega

/-- The high byte of a joined word. -/
theorem hiByte_word (hi lo : Byte) : Machine.hiByte (Machine.word hi lo) = hi := by
  apply BitVec.eq_of_toNat_eq
  simp [Machine.word, Machine.hiByte, BitVec.toNat_setWidth, BitVec.toNat_ushiftRight]
  have := lo.isLt
  have := hi.isLt
  omega

end Sys2Proof
end

