-- ==== Sys2Proof/Laws/State.lean ====
section
/-! SUPPORT. One lemma per field per update of State, each true by rfl. -/

namespace Sys2Proof.Machine

@[simp] theorem State.setA_pc (s : State) (v : Byte) : (s.setA v).pc = s.pc := rfl
@[simp] theorem State.setA_sp (s : State) (v : Byte) : (s.setA v).sp = s.sp := rfl
@[simp] theorem State.setA_a (s : State) (v : Byte) : (s.setA v).a = v := rfl
@[simp] theorem State.setA_x (s : State) (v : Byte) : (s.setA v).x = s.x := rfl
@[simp] theorem State.setA_y (s : State) (v : Byte) : (s.setA v).y = s.y := rfl
@[simp] theorem State.setA_flags (s : State) (v : Byte) : (s.setA v).flags = s.flags := rfl
@[simp] theorem State.setA_cycles (s : State) (v : Byte) : (s.setA v).cycles = s.cycles := rfl
@[simp] theorem State.setA_interrupt (s : State) (v : Byte) : (s.setA v).interrupt = s.interrupt := rfl
@[simp] theorem State.setA_stall (s : State) (v : Byte) : (s.setA v).stall = s.stall := rfl
@[simp] theorem State.setA_mem (s : State) (v : Byte) : (s.setA v).mem = s.mem := rfl
@[simp] theorem State.setA_bus (s : State) (v : Byte) : (s.setA v).bus = s.bus := rfl

@[simp] theorem State.setX_pc (s : State) (v : Byte) : (s.setX v).pc = s.pc := rfl
@[simp] theorem State.setX_sp (s : State) (v : Byte) : (s.setX v).sp = s.sp := rfl
@[simp] theorem State.setX_a (s : State) (v : Byte) : (s.setX v).a = s.a := rfl
@[simp] theorem State.setX_x (s : State) (v : Byte) : (s.setX v).x = v := rfl
@[simp] theorem State.setX_y (s : State) (v : Byte) : (s.setX v).y = s.y := rfl
@[simp] theorem State.setX_flags (s : State) (v : Byte) : (s.setX v).flags = s.flags := rfl
@[simp] theorem State.setX_cycles (s : State) (v : Byte) : (s.setX v).cycles = s.cycles := rfl
@[simp] theorem State.setX_interrupt (s : State) (v : Byte) : (s.setX v).interrupt = s.interrupt := rfl
@[simp] theorem State.setX_stall (s : State) (v : Byte) : (s.setX v).stall = s.stall := rfl
@[simp] theorem State.setX_mem (s : State) (v : Byte) : (s.setX v).mem = s.mem := rfl
@[simp] theorem State.setX_bus (s : State) (v : Byte) : (s.setX v).bus = s.bus := rfl

@[simp] theorem State.setY_pc (s : State) (v : Byte) : (s.setY v).pc = s.pc := rfl
@[simp] theorem State.setY_sp (s : State) (v : Byte) : (s.setY v).sp = s.sp := rfl
@[simp] theorem State.setY_a (s : State) (v : Byte) : (s.setY v).a = s.a := rfl
@[simp] theorem State.setY_x (s : State) (v : Byte) : (s.setY v).x = s.x := rfl
@[simp] theorem State.setY_y (s : State) (v : Byte) : (s.setY v).y = v := rfl
@[simp] theorem State.setY_flags (s : State) (v : Byte) : (s.setY v).flags = s.flags := rfl
@[simp] theorem State.setY_cycles (s : State) (v : Byte) : (s.setY v).cycles = s.cycles := rfl
@[simp] theorem State.setY_interrupt (s : State) (v : Byte) : (s.setY v).interrupt = s.interrupt := rfl
@[simp] theorem State.setY_stall (s : State) (v : Byte) : (s.setY v).stall = s.stall := rfl
@[simp] theorem State.setY_mem (s : State) (v : Byte) : (s.setY v).mem = s.mem := rfl
@[simp] theorem State.setY_bus (s : State) (v : Byte) : (s.setY v).bus = s.bus := rfl

@[simp] theorem State.setSp_pc (s : State) (v : Byte) : (s.setSp v).pc = s.pc := rfl
@[simp] theorem State.setSp_sp (s : State) (v : Byte) : (s.setSp v).sp = v := rfl
@[simp] theorem State.setSp_a (s : State) (v : Byte) : (s.setSp v).a = s.a := rfl
@[simp] theorem State.setSp_x (s : State) (v : Byte) : (s.setSp v).x = s.x := rfl
@[simp] theorem State.setSp_y (s : State) (v : Byte) : (s.setSp v).y = s.y := rfl
@[simp] theorem State.setSp_flags (s : State) (v : Byte) : (s.setSp v).flags = s.flags := rfl
@[simp] theorem State.setSp_cycles (s : State) (v : Byte) : (s.setSp v).cycles = s.cycles := rfl
@[simp] theorem State.setSp_interrupt (s : State) (v : Byte) : (s.setSp v).interrupt = s.interrupt := rfl
@[simp] theorem State.setSp_stall (s : State) (v : Byte) : (s.setSp v).stall = s.stall := rfl
@[simp] theorem State.setSp_mem (s : State) (v : Byte) : (s.setSp v).mem = s.mem := rfl
@[simp] theorem State.setSp_bus (s : State) (v : Byte) : (s.setSp v).bus = s.bus := rfl

@[simp] theorem State.setPc_pc (s : State) (w : Addr) : (s.setPc w).pc = w := rfl
@[simp] theorem State.setPc_sp (s : State) (w : Addr) : (s.setPc w).sp = s.sp := rfl
@[simp] theorem State.setPc_a (s : State) (w : Addr) : (s.setPc w).a = s.a := rfl
@[simp] theorem State.setPc_x (s : State) (w : Addr) : (s.setPc w).x = s.x := rfl
@[simp] theorem State.setPc_y (s : State) (w : Addr) : (s.setPc w).y = s.y := rfl
@[simp] theorem State.setPc_flags (s : State) (w : Addr) : (s.setPc w).flags = s.flags := rfl
@[simp] theorem State.setPc_cycles (s : State) (w : Addr) : (s.setPc w).cycles = s.cycles := rfl
@[simp] theorem State.setPc_interrupt (s : State) (w : Addr) : (s.setPc w).interrupt = s.interrupt := rfl
@[simp] theorem State.setPc_stall (s : State) (w : Addr) : (s.setPc w).stall = s.stall := rfl
@[simp] theorem State.setPc_mem (s : State) (w : Addr) : (s.setPc w).mem = s.mem := rfl
@[simp] theorem State.setPc_bus (s : State) (w : Addr) : (s.setPc w).bus = s.bus := rfl

@[simp] theorem State.setFlags_pc (s : State) (f : Flags) : (s.setFlags f).pc = s.pc := rfl
@[simp] theorem State.setFlags_sp (s : State) (f : Flags) : (s.setFlags f).sp = s.sp := rfl
@[simp] theorem State.setFlags_a (s : State) (f : Flags) : (s.setFlags f).a = s.a := rfl
@[simp] theorem State.setFlags_x (s : State) (f : Flags) : (s.setFlags f).x = s.x := rfl
@[simp] theorem State.setFlags_y (s : State) (f : Flags) : (s.setFlags f).y = s.y := rfl
@[simp] theorem State.setFlags_flags (s : State) (f : Flags) : (s.setFlags f).flags = f := rfl
@[simp] theorem State.setFlags_cycles (s : State) (f : Flags) : (s.setFlags f).cycles = s.cycles := rfl
@[simp] theorem State.setFlags_interrupt (s : State) (f : Flags) : (s.setFlags f).interrupt = s.interrupt := rfl
@[simp] theorem State.setFlags_stall (s : State) (f : Flags) : (s.setFlags f).stall = s.stall := rfl
@[simp] theorem State.setFlags_mem (s : State) (f : Flags) : (s.setFlags f).mem = s.mem := rfl
@[simp] theorem State.setFlags_bus (s : State) (f : Flags) : (s.setFlags f).bus = s.bus := rfl

@[simp] theorem State.setInterrupt_pc (s : State) (k : Interrupt) : (s.setInterrupt k).pc = s.pc := rfl
@[simp] theorem State.setInterrupt_sp (s : State) (k : Interrupt) : (s.setInterrupt k).sp = s.sp := rfl
@[simp] theorem State.setInterrupt_a (s : State) (k : Interrupt) : (s.setInterrupt k).a = s.a := rfl
@[simp] theorem State.setInterrupt_x (s : State) (k : Interrupt) : (s.setInterrupt k).x = s.x := rfl
@[simp] theorem State.setInterrupt_y (s : State) (k : Interrupt) : (s.setInterrupt k).y = s.y := rfl
@[simp] theorem State.setInterrupt_flags (s : State) (k : Interrupt) : (s.setInterrupt k).flags = s.flags := rfl
@[simp] theorem State.setInterrupt_cycles (s : State) (k : Interrupt) : (s.setInterrupt k).cycles = s.cycles := rfl
@[simp] theorem State.setInterrupt_interrupt (s : State) (k : Interrupt) : (s.setInterrupt k).interrupt = k := rfl
@[simp] theorem State.setInterrupt_stall (s : State) (k : Interrupt) : (s.setInterrupt k).stall = s.stall := rfl
@[simp] theorem State.setInterrupt_mem (s : State) (k : Interrupt) : (s.setInterrupt k).mem = s.mem := rfl
@[simp] theorem State.setInterrupt_bus (s : State) (k : Interrupt) : (s.setInterrupt k).bus = s.bus := rfl

@[simp] theorem State.setStall_pc (s : State) (n : Nat) : (s.setStall n).pc = s.pc := rfl
@[simp] theorem State.setStall_sp (s : State) (n : Nat) : (s.setStall n).sp = s.sp := rfl
@[simp] theorem State.setStall_a (s : State) (n : Nat) : (s.setStall n).a = s.a := rfl
@[simp] theorem State.setStall_x (s : State) (n : Nat) : (s.setStall n).x = s.x := rfl
@[simp] theorem State.setStall_y (s : State) (n : Nat) : (s.setStall n).y = s.y := rfl
@[simp] theorem State.setStall_flags (s : State) (n : Nat) : (s.setStall n).flags = s.flags := rfl
@[simp] theorem State.setStall_cycles (s : State) (n : Nat) : (s.setStall n).cycles = s.cycles := rfl
@[simp] theorem State.setStall_interrupt (s : State) (n : Nat) : (s.setStall n).interrupt = s.interrupt := rfl
@[simp] theorem State.setStall_stall (s : State) (n : Nat) : (s.setStall n).stall = n := rfl
@[simp] theorem State.setStall_mem (s : State) (n : Nat) : (s.setStall n).mem = s.mem := rfl
@[simp] theorem State.setStall_bus (s : State) (n : Nat) : (s.setStall n).bus = s.bus := rfl

@[simp] theorem State.addCycles_pc (s : State) (n : Nat) : (s.addCycles n).pc = s.pc := rfl
@[simp] theorem State.addCycles_sp (s : State) (n : Nat) : (s.addCycles n).sp = s.sp := rfl
@[simp] theorem State.addCycles_a (s : State) (n : Nat) : (s.addCycles n).a = s.a := rfl
@[simp] theorem State.addCycles_x (s : State) (n : Nat) : (s.addCycles n).x = s.x := rfl
@[simp] theorem State.addCycles_y (s : State) (n : Nat) : (s.addCycles n).y = s.y := rfl
@[simp] theorem State.addCycles_flags (s : State) (n : Nat) : (s.addCycles n).flags = s.flags := rfl
@[simp] theorem State.addCycles_cycles (s : State) (n : Nat) : (s.addCycles n).cycles = s.cycles + n := rfl
@[simp] theorem State.addCycles_interrupt (s : State) (n : Nat) : (s.addCycles n).interrupt = s.interrupt := rfl
@[simp] theorem State.addCycles_stall (s : State) (n : Nat) : (s.addCycles n).stall = s.stall := rfl
@[simp] theorem State.addCycles_mem (s : State) (n : Nat) : (s.addCycles n).mem = s.mem := rfl
@[simp] theorem State.addCycles_bus (s : State) (n : Nat) : (s.addCycles n).bus = s.bus := rfl

@[simp] theorem State.setMem_pc (s : State) (m : Contract) : (s.setMem m).pc = s.pc := rfl
@[simp] theorem State.setMem_sp (s : State) (m : Contract) : (s.setMem m).sp = s.sp := rfl
@[simp] theorem State.setMem_a (s : State) (m : Contract) : (s.setMem m).a = s.a := rfl
@[simp] theorem State.setMem_x (s : State) (m : Contract) : (s.setMem m).x = s.x := rfl
@[simp] theorem State.setMem_y (s : State) (m : Contract) : (s.setMem m).y = s.y := rfl
@[simp] theorem State.setMem_flags (s : State) (m : Contract) : (s.setMem m).flags = s.flags := rfl
@[simp] theorem State.setMem_cycles (s : State) (m : Contract) : (s.setMem m).cycles = s.cycles := rfl
@[simp] theorem State.setMem_interrupt (s : State) (m : Contract) : (s.setMem m).interrupt = s.interrupt := rfl
@[simp] theorem State.setMem_stall (s : State) (m : Contract) : (s.setMem m).stall = s.stall := rfl
@[simp] theorem State.setMem_mem (s : State) (m : Contract) : (s.setMem m).mem = m := rfl
@[simp] theorem State.setMem_bus (s : State) (m : Contract) : (s.setMem m).bus = s.bus := rfl

@[simp] theorem State.setBus_pc (s : State) (l : List Access) : (s.setBus l).pc = s.pc := rfl
@[simp] theorem State.setBus_sp (s : State) (l : List Access) : (s.setBus l).sp = s.sp := rfl
@[simp] theorem State.setBus_a (s : State) (l : List Access) : (s.setBus l).a = s.a := rfl
@[simp] theorem State.setBus_x (s : State) (l : List Access) : (s.setBus l).x = s.x := rfl
@[simp] theorem State.setBus_y (s : State) (l : List Access) : (s.setBus l).y = s.y := rfl
@[simp] theorem State.setBus_flags (s : State) (l : List Access) : (s.setBus l).flags = s.flags := rfl
@[simp] theorem State.setBus_cycles (s : State) (l : List Access) : (s.setBus l).cycles = s.cycles := rfl
@[simp] theorem State.setBus_interrupt (s : State) (l : List Access) : (s.setBus l).interrupt = s.interrupt := rfl
@[simp] theorem State.setBus_stall (s : State) (l : List Access) : (s.setBus l).stall = s.stall := rfl
@[simp] theorem State.setBus_mem (s : State) (l : List Access) : (s.setBus l).mem = s.mem := rfl
@[simp] theorem State.setBus_bus (s : State) (l : List Access) : (s.setBus l).bus = l := rfl

@[simp] theorem State.note_pc (s : State) (acc : Access) : (s.note acc).pc = s.pc := rfl
@[simp] theorem State.note_sp (s : State) (acc : Access) : (s.note acc).sp = s.sp := rfl
@[simp] theorem State.note_a (s : State) (acc : Access) : (s.note acc).a = s.a := rfl
@[simp] theorem State.note_x (s : State) (acc : Access) : (s.note acc).x = s.x := rfl
@[simp] theorem State.note_y (s : State) (acc : Access) : (s.note acc).y = s.y := rfl
@[simp] theorem State.note_flags (s : State) (acc : Access) : (s.note acc).flags = s.flags := rfl
@[simp] theorem State.note_cycles (s : State) (acc : Access) : (s.note acc).cycles = s.cycles := rfl
@[simp] theorem State.note_interrupt (s : State) (acc : Access) : (s.note acc).interrupt = s.interrupt := rfl
@[simp] theorem State.note_stall (s : State) (acc : Access) : (s.note acc).stall = s.stall := rfl
@[simp] theorem State.note_mem (s : State) (acc : Access) : (s.note acc).mem = s.mem := rfl
@[simp] theorem State.note_bus (s : State) (acc : Access) : (s.note acc).bus = s.bus ++ [acc] := rfl

@[simp] theorem State.noteRead_pc (s : State) (addr : Addr) (v : Byte) : (s.noteRead addr v).pc = s.pc := rfl
@[simp] theorem State.noteRead_sp (s : State) (addr : Addr) (v : Byte) : (s.noteRead addr v).sp = s.sp := rfl
@[simp] theorem State.noteRead_a (s : State) (addr : Addr) (v : Byte) : (s.noteRead addr v).a = s.a := rfl
@[simp] theorem State.noteRead_x (s : State) (addr : Addr) (v : Byte) : (s.noteRead addr v).x = s.x := rfl
@[simp] theorem State.noteRead_y (s : State) (addr : Addr) (v : Byte) : (s.noteRead addr v).y = s.y := rfl
@[simp] theorem State.noteRead_flags (s : State) (addr : Addr) (v : Byte) : (s.noteRead addr v).flags = s.flags := rfl
@[simp] theorem State.noteRead_cycles (s : State) (addr : Addr) (v : Byte) : (s.noteRead addr v).cycles = s.cycles := rfl
@[simp] theorem State.noteRead_interrupt (s : State) (addr : Addr) (v : Byte) : (s.noteRead addr v).interrupt = s.interrupt := rfl
@[simp] theorem State.noteRead_stall (s : State) (addr : Addr) (v : Byte) : (s.noteRead addr v).stall = s.stall := rfl
@[simp] theorem State.noteRead_mem (s : State) (addr : Addr) (v : Byte) :
    (s.noteRead addr v).mem = (s.mem.read8 addr).2 := rfl
@[simp] theorem State.noteRead_bus (s : State) (addr : Addr) (v : Byte) :
    (s.noteRead addr v).bus = s.bus ++ [.rd addr v] := rfl

@[simp] theorem State.setZN_pc (s : State) (v : Byte) : (s.setZN v).pc = s.pc := rfl
@[simp] theorem State.setZN_sp (s : State) (v : Byte) : (s.setZN v).sp = s.sp := rfl
@[simp] theorem State.setZN_a (s : State) (v : Byte) : (s.setZN v).a = s.a := rfl
@[simp] theorem State.setZN_x (s : State) (v : Byte) : (s.setZN v).x = s.x := rfl
@[simp] theorem State.setZN_y (s : State) (v : Byte) : (s.setZN v).y = s.y := rfl
@[simp] theorem State.setZN_flags (s : State) (v : Byte) : (s.setZN v).flags = s.flags.setZN v := rfl
@[simp] theorem State.setZN_cycles (s : State) (v : Byte) : (s.setZN v).cycles = s.cycles := rfl
@[simp] theorem State.setZN_interrupt (s : State) (v : Byte) : (s.setZN v).interrupt = s.interrupt := rfl
@[simp] theorem State.setZN_stall (s : State) (v : Byte) : (s.setZN v).stall = s.stall := rfl
@[simp] theorem State.setZN_mem (s : State) (v : Byte) : (s.setZN v).mem = s.mem := rfl
@[simp] theorem State.setZN_bus (s : State) (v : Byte) : (s.setZN v).bus = s.bus := rfl

end Sys2Proof.Machine
end

