-- ==== Sys2Proof/Laws/Ops.lean ====
section
/-! SUPPORT. One lemma per shared operation of Machine/Ops.lean that says everything it does, in terms of `State.access`. -/

namespace Sys2Proof.Machine

@[simp] theorem State.access_pc (s : State) (l : List Access) : (s.access l).pc = s.pc := rfl
@[simp] theorem State.access_sp (s : State) (l : List Access) : (s.access l).sp = s.sp := rfl
@[simp] theorem State.access_a (s : State) (l : List Access) : (s.access l).a = s.a := rfl
@[simp] theorem State.access_x (s : State) (l : List Access) : (s.access l).x = s.x := rfl
@[simp] theorem State.access_y (s : State) (l : List Access) : (s.access l).y = s.y := rfl
@[simp] theorem State.access_flags (s : State) (l : List Access) : (s.access l).flags = s.flags := rfl
@[simp] theorem State.access_cycles (s : State) (l : List Access) : (s.access l).cycles = s.cycles := rfl
@[simp] theorem State.access_interrupt (s : State) (l : List Access) : (s.access l).interrupt = s.interrupt := rfl
@[simp] theorem State.access_stall (s : State) (l : List Access) : (s.access l).stall = s.stall := rfl
@[simp] theorem State.access_mem (s : State) (l : List Access) : (s.access l).mem = s.mem.replay l := rfl
@[simp] theorem State.access_bus (s : State) (l : List Access) : (s.access l).bus = s.bus ++ l := rfl

@[simp] theorem State.afterRead_pc (s : State) (addr : Addr) : (s.afterRead addr).pc = s.pc := rfl
@[simp] theorem State.afterRead_sp (s : State) (addr : Addr) : (s.afterRead addr).sp = s.sp := rfl
@[simp] theorem State.afterRead_a (s : State) (addr : Addr) : (s.afterRead addr).a = s.a := rfl
@[simp] theorem State.afterRead_x (s : State) (addr : Addr) : (s.afterRead addr).x = s.x := rfl
@[simp] theorem State.afterRead_y (s : State) (addr : Addr) : (s.afterRead addr).y = s.y := rfl
@[simp] theorem State.afterRead_flags (s : State) (addr : Addr) : (s.afterRead addr).flags = s.flags := rfl
@[simp] theorem State.afterRead_cycles (s : State) (addr : Addr) : (s.afterRead addr).cycles = s.cycles := rfl
@[simp] theorem State.afterRead_interrupt (s : State) (addr : Addr) : (s.afterRead addr).interrupt = s.interrupt := rfl
@[simp] theorem State.afterRead_stall (s : State) (addr : Addr) : (s.afterRead addr).stall = s.stall := rfl
@[simp] theorem State.afterRead_mem (s : State) (addr : Addr) : (s.afterRead addr).mem = (s.mem.read8 addr).2 := rfl
@[simp] theorem State.afterRead_bus (s : State) (addr : Addr) : (s.afterRead addr).bus = s.bus ++ [readOf s addr] := rfl

@[simp] theorem State.access_nil (s : State) : s.access [] = s := by
  simp [State.access]

@[simp] theorem State.access_access (s : State) (l l' : List Access) : (s.access l).access l' = s.access (l ++ l') := by
  simp [State.access, Contract.replay_append]

/-- What is read depends on the contract alone. -/
theorem State.byteAt_congr {s t : State} (h : t.mem = s.mem) (addr : Addr) : t.byteAt addr = s.byteAt addr := by
  rw [State.byteAt, h, State.byteAt]

/-- The byte of an address that leads to a cell. -/
theorem State.byteAt_of_cellAt {s : State} {addr c : Addr} (h : s.mem.cellAt addr = some c) :
    s.byteAt addr = s.mem.cells.read c := by
  rw [State.byteAt, Contract.read8_of_cellAt h]

theorem State.noteRead_eq (s : State) (addr : Addr) (v : Byte) : s.noteRead addr v = s.access [.rd addr v] := rfl

/-- A read answers the byte; the contract sees it, and it is recorded. -/
theorem State.memRead_eq (s : State) (addr : Addr) : s.memRead addr = (s.byteAt addr, s.afterRead addr) := rfl

/-- A write: the contract sees it, and it is recorded. -/
theorem State.memWrite_eq (s : State) (addr : Addr) (v : Byte) : s.memWrite addr v = s.access [.wr addr v] := rfl

/-- A 16-bit read answers the little-endian word of its two reads, the low byte first. -/
theorem State.memRead16_eq (s : State) (addr : Addr) :
    s.memRead16 addr = (word ((s.afterRead addr).byteAt (addr + 1)) (s.byteAt addr),
      s.access (readsFrom s [addr, addr + 1])) := by
  simp [State.memRead16, State.memRead_eq, State.afterRead, readsFrom]

/-- The page-wrapping 16-bit read answers the word of its two reads, the low byte first. -/
theorem State.memRead16Bug_eq (s : State) (addr : Addr) :
    s.memRead16Bug addr = (word ((s.afterRead addr).byteAt (bugNext addr)) (s.byteAt addr),
      s.access (readsFrom s [addr, bugNext addr])) := by
  simp [State.memRead16Bug, State.memRead_eq, State.afterRead, readsFrom]

/-- A push writes one byte of the stack page and lowers `SP` by 1. -/
theorem State.push_eq (s : State) (v : Byte) :
    s.push v = { s.access [.wr (stackAddr s.sp) v] with sp := s.sp - 1 } := rfl

/-- A 16-bit push writes the high byte, then the low byte below it, and lowers `SP` by 2. -/
theorem State.push16_eq (s : State) (w : Addr) :
    s.push16 w = { s.access [.wr (stackAddr s.sp) (hiByte w), .wr (stackAddr (s.sp - 1)) (loByte w)] with
      sp := s.sp - 1 - 1 } := by
  simp [State.push16, State.push_eq, State.access]

/-- A pull answers the byte above `SP` and raises `SP` by 1. -/
theorem State.pull_eq (s : State) :
    s.pull = (s.byteAt (stackAddr (s.sp + 1)), { s.afterRead (stackAddr (s.sp + 1)) with sp := s.sp + 1 }) := rfl

/-- A 16-bit pull answers the word above `SP`, low byte first, and raises `SP` by 2. -/
theorem State.pull16_eq (s : State) :
    s.pull16 =
      let t := s.afterRead (stackAddr (s.sp + 1))
      (word (t.byteAt (stackAddr (s.sp + 1 + 1))) (s.byteAt (stackAddr (s.sp + 1))),
        { t.afterRead (stackAddr (s.sp + 1 + 1)) with sp := s.sp + 1 + 1 }) := rfl

/-- Entering a handler: three pushes, `I` set, `PC` from the vector as memory stands after the pushes; nothing else. -/
theorem State.enterHandler_eq (s : State) (vector : Addr) (p : Byte) :
    s.enterHandler vector p =
      let pushed := s.access [.wr (stackAddr s.sp) (hiByte s.pc), .wr (stackAddr (s.sp - 1)) (loByte s.pc),
        .wr (stackAddr (s.sp - 1 - 1)) p]
      let half := pushed.afterRead vector
      { half.afterRead (vector + 1) with
        sp := s.sp - 1 - 1 - 1
        flags := { s.flags with i := true }
        pc := word (half.byteAt (vector + 1)) (pushed.byteAt vector) } := by
  simp [State.enterHandler, State.memRead16_eq, State.push16_eq, State.push_eq, State.setFlags, State.setPc, State.access,
    State.afterRead, State.byteAt, readsFrom, readOf]

/-- Leaving a handler: the flags from the first pulled byte, `PC` from the next two, `SP` up by 3; nothing else. -/
theorem State.leaveHandler_eq (s : State) :
    s.leaveHandler =
      let t := s.afterRead (stackAddr (s.sp + 1))
      let u := t.afterRead (stackAddr (s.sp + 1 + 1))
      { u.afterRead (stackAddr (s.sp + 1 + 1 + 1)) with
        flags := Flags.unpack (s.byteAt (stackAddr (s.sp + 1)))
        pc := word (u.byteAt (stackAddr (s.sp + 1 + 1 + 1))) (t.byteAt (stackAddr (s.sp + 1 + 1)))
        sp := s.sp + 1 + 1 + 1 } := rfl

/-! ### What the contract has seen -/

@[simp] theorem onlyAccessed_refl (s : State) : onlyAccessed s s := ⟨[], rfl, by simp⟩

/-- Accesses made on top of others, by a state with the contract and the record of `t`. -/
theorem onlyAccessed.access {s t u : State} (h : onlyAccessed s t) (l : List Access) (hm : u.mem = t.mem.replay l)
    (hb : u.bus = t.bus ++ l) : onlyAccessed s u := by
  obtain ⟨k, hk, hk'⟩ := h
  exact ⟨k ++ l, by rw [hm, hk, Contract.replay_append], by rw [hb, hk', List.append_assoc]⟩

/-- Neither the contract nor the record changes. -/
theorem onlyAccessed.congr {s t u : State} (h : onlyAccessed s t) (hm : u.mem = t.mem) (hb : u.bus = t.bus) :
    onlyAccessed s u := h.access [] hm (by simp [hb])

theorem onlyAccessed.trans {s t u : State} (h : onlyAccessed s t) (h' : onlyAccessed t u) : onlyAccessed s u :=
  let ⟨l, hm, hb⟩ := h'
  h.access l hm hb

theorem onlyAccessed.wf {s t : State} (h : onlyAccessed s t) (hs : s.mem.wf = true) : t.mem.wf = true := by
  obtain ⟨l, hm, -⟩ := h
  rw [hm]
  exact Contract.replay_wf l hs

theorem onlyAccessed_push (s : State) (v : Byte) : onlyAccessed s (s.push v) := ⟨_, rfl, rfl⟩

theorem onlyAccessed_push16 (s : State) (w : Addr) : onlyAccessed s (s.push16 w) := by
  rw [State.push16_eq]
  exact ⟨_, rfl, rfl⟩

theorem onlyAccessed_afterRead (s : State) (addr : Addr) : onlyAccessed s (s.afterRead addr) := ⟨_, rfl, rfl⟩

theorem onlyAccessed_pull (s : State) : onlyAccessed s s.pull.2 := ⟨_, rfl, rfl⟩

theorem onlyAccessed_pull16 (s : State) : onlyAccessed s s.pull16.2 :=
  (onlyAccessed_afterRead s _).trans ⟨_, rfl, rfl⟩

theorem onlyAccessed_enterHandler (s : State) (vector : Addr) (p : Byte) :
    onlyAccessed s (s.enterHandler vector p) := by
  rw [State.enterHandler_eq]
  exact onlyAccessed.trans ⟨_, rfl, rfl⟩ ((onlyAccessed_afterRead _ _).trans ⟨_, rfl, rfl⟩)

theorem onlyAccessed_leaveHandler (s : State) : onlyAccessed s s.leaveHandler :=
  (onlyAccessed_afterRead s _).trans ((onlyAccessed_afterRead _ _).trans ⟨_, rfl, rfl⟩)

theorem onlyAccessed_makeRequests (s : State) (l : List Request) : onlyAccessed s (s.makeRequests l) := by
  induction l generalizing s with
  | nil => exact onlyAccessed_refl s
  | cons r rest ih =>
    cases r with
    | read addr => exact (onlyAccessed_afterRead s addr).trans (ih _)
    | write addr v => exact onlyAccessed.trans ⟨[.wr addr v], rfl, rfl⟩ (ih _)

/-- The frame of a sequence of accesses: every byte but those it writes reads as before. -/
theorem sameBytesExcept_of_replay {s t : State} {stored : List Addr} {l : List Access} (hs : s.canonical)
    (ht : t.mem = s.mem.replay l) (h : ∀ addr v, Access.wr addr v ∈ l → addr ∈ stored) : sameBytesExcept stored s t := by
  have hw : t.mem.windows = s.mem.windows := by rw [ht, Contract.replay_windows]
  refine ⟨hw, fun addr c hc hn => ?_⟩
  rw [State.byteAt_of_cellAt hc, State.byteAt_of_cellAt ((Contract.cellAt_congr hw addr).trans hc), ht]
  exact Contract.replay_cell hs fun a v ha => hn a (h a v ha)

end Sys2Proof.Machine
end

