-- ==== Sys2Proof/Laws/Operands.lean ====
section
/-! SUPPORT. The resolver, the operand and the shared part of every instruction: one lemma each. -/

namespace Sys2Proof.Machine

/-- The resolver makes its reads and changes nothing else (R86, R281). -/
theorem resolve_snd (o : Operand) (s : State) : (resolve o s).2 = s.access (resolverAccesses o s) := by
  cases o <;>
    simp [resolve, resolverAccesses, operandByteReads, pointerAddrs, readsFrom, State.readOperandByte, State.readOperandWord,
      State.noteRead_eq, State.memRead16_eq, State.memRead16Bug_eq]

/-- The resolver hands on the operand it was given. -/
@[simp] theorem resolve_operand (o : Operand) (s : State) : (resolve o s).1.operand = o := by
  cases o <;> rfl

/-- Reading the operand, in a state with the accumulator of the state the resolver began in and the contract as the resolver
leaves it. -/
theorem readOperand_resolve {o : Operand} {s t : State} (ha : t.a = s.a)
    (hm : t.mem = s.mem.replay (resolverAccesses o s)) :
    t.readOperand (resolve o s).1 = (operandValue o s, t.access (operandAccesses o s)) := by
  have hb : ∀ addr, t.byteAt addr = (s.access (resolverAccesses o s)).byteAt addr := State.byteAt_congr hm
  cases o with
  | acc => simp [State.readOperand, operandValue, operandAccesses, ha]
  | imm value => rfl
  | _ =>
    simp only [State.readOperand, resolve_operand, operandValue, operandAccesses, State.memRead_eq, State.afterRead, readOf,
      effectiveAddr, hb, reduceCtorEq, if_false]

/-- Writing the result back: to the accumulator, or one write of the effective address. -/
theorem writeOperand_eq (t : State) (r : Resolved) (v : Byte) :
    t.writeOperand r v = if r.operand = .acc then t.setA v else t.access [.wr r.ea v] := by
  obtain ⟨o, ea, crossed⟩ := r
  cases o <;> simp [State.writeOperand, State.memWrite_eq]

/-- What the engine does around an executor (R276, R277, R279). -/
theorem perform_eq (d : Descriptor) (o : Operand) (run : Executor) (s : State) :
    perform d o run s =
      let t := run (resolve o s).1 ((s.access (resolverAccesses o s)).setPc (s.pc + BitVec.ofNat 16 d.length))
      { t with cycles := t.cycles + d.cycles + pageCost d (resolve o s).1.crossed } := by
  simp [perform, resolve_snd, State.addCycles]

@[simp] theorem runForm_some (d : Descriptor) (o : Operand) (run : Executor) (s : State) :
    runForm (some d) o run s = .next (perform d o run s) := rfl

@[simp] theorem runForm_none (o : Operand) (run : Executor) (s : State) :
    runForm none o run s = .refused .noSuchForm := rfl

/-- A well-formed instruction is one that has a descriptor. -/
theorem Instr.wf_iff (i : Instr) : i.wf = i.descriptor?.isSome := by
  cases i <;> simp [Instr.wf, Instr.descriptor?, Mnemonic.admits, documentedDescriptor, illegalDescriptor, undocumented]
  split <;> simp_all

/-- A mnemonic admits a mode exactly if that form has a descriptor. -/
theorem Mnemonic.admits_iff (m : Mnemonic) (mode : Mode) :
    m.admits mode = true ↔ ∃ d, documentedDescriptor m mode = some d := by
  simp only [Mnemonic.admits, documentedDescriptor, Option.isSome_iff_exists, Option.map_eq_some_iff]
  exact ⟨fun ⟨op, h⟩ => ⟨_, op, h, rfl⟩, fun ⟨_, op, h, _⟩ => ⟨op, h⟩⟩

end Sys2Proof.Machine
end

