-- ==== Sys2Proof/Laws/Exec.lean ====
section
/-! SUPPORT. Said once for all instructions: a meaning is the engine around an executor, and no executor touches the control
fields, reaches memory but by accesses it records, or changes `Cycles` by more than the branch penalties. -/

namespace Sys2Proof.Machine

/-- The most a branch adds to its base cost (R150, R279); 0 for every other instruction. -/
def maxPenalty (m : Mnemonic) : Nat := if m ∈ [.bcc, .bcs, .beq, .bne, .bpl, .bmi, .bvc, .bvs] then 2 else 0

/-- What every executor keeps, in an instruction begun in state `s` whose branch penalties are at most `penalty`. -/
structure Tame (s : State) (penalty : Nat) (run : Executor) : Prop where
  /-- `interrupt` and `stall` are untouched (R38, R39). -/
  control : ∀ r t, sameControl t (run r t)
  /-- Memory is reached only by accesses to the contract, and they are recorded (R50, R281). -/
  accesses : ∀ r t, onlyAccessed s t → onlyAccessed s (run r t)
  /-- `Cycles` grows by the branch penalties at most (R150). -/
  cycles : ∀ r t, t.cycles ≤ (run r t).cycles ∧ (run r t).cycles ≤ t.cycles + penalty

/-- An executor that makes accesses and changes registers and flags beside, but no cycles, is tame. -/
theorem Tame.of_accesses {s : State} {run : Executor}
    (h : ∀ r t, onlyAccessed t (run r t) ∧ (run r t).cycles = t.cycles ∧ sameControl t (run r t)) : Tame s 0 run where
  control r t := (h r t).2.2
  accesses r t ht := ht.trans (h r t).1
  cycles r t := by rw [(h r t).2.1]; omega

/-- An executor that changes registers, flags and `PC` only is tame. -/
theorem Tame.of_same {s : State} {run : Executor}
    (h : ∀ r t, (run r t).mem = t.mem ∧ (run r t).bus = t.bus ∧ (run r t).cycles = t.cycles ∧ sameControl t (run r t)) :
    Tame s 0 run :=
  Tame.of_accesses fun r t => ⟨(onlyAccessed_refl t).congr (h r t).1 (h r t).2.1, (h r t).2.2⟩

/-- Reading an operand makes accesses and changes nothing else. -/
theorem readOperand_snd (t : State) (r : Resolved) : ∃ l, (t.readOperand r).2 = t.access l := by
  obtain ⟨o, ea, crossed⟩ := r
  cases o with
  | acc => exact ⟨[], (State.access_nil t).symm⟩
  | imm value => exact ⟨[.rd ea value], rfl⟩
  | _ => exact ⟨[readOf t ea], rfl⟩

/-- Writing an operand back changes the accumulator, or makes one access. -/
theorem writeOperand_cases (t : State) (r : Resolved) (v : Byte) :
    t.writeOperand r v = t.setA v ∨ t.writeOperand r v = t.access [.wr r.ea v] := by
  obtain ⟨o, ea, crossed⟩ := r
  cases o <;> first | exact .inl rfl | exact .inr rfl

/-- An executor that reads its operand and then changes registers and flags only is tame. -/
theorem Tame.of_read {s : State} {f : Byte → State → State}
    (h : ∀ v t, (f v t).mem = t.mem ∧ (f v t).bus = t.bus ∧ (f v t).cycles = t.cycles ∧ sameControl t (f v t)) :
    Tame s 0 (fun r t => f (t.readOperand r).1 (t.readOperand r).2) := by
  refine Tame.of_accesses fun r t => ?_
  obtain ⟨l, hl⟩ := readOperand_snd t r
  rw [hl]
  obtain ⟨hm, hb, hc⟩ := h (t.readOperand r).1 (t.access l)
  exact ⟨(onlyAccessed_refl t).access l hm hb, hc⟩

theorem Tame.load {s : State} {put : State → Byte → State}
    (h : ∀ t v, (put t v).mem = t.mem ∧ (put t v).bus = t.bus ∧ (put t v).cycles = t.cycles ∧ sameControl t (put t v)) :
    Tame s 0 (loadExecutor put) :=
  Tame.of_read (f := fun v t => (put t v).setZN v) fun v t => h t v

theorem Tame.logic (s : State) (op : Byte → Byte → Byte) : Tame s 0 (logicExecutor op) :=
  Tame.of_read (f := fun v t => (t.setA (op t.a v)).setZN (op t.a v)) fun _ _ => ⟨rfl, rfl, rfl, rfl, rfl⟩

theorem Tame.shift (s : State) (outBit : Nat) (result : Byte → Bool → Byte) : Tame s 0 (shiftExecutor outBit result) := by
  refine Tame.of_accesses fun r t => ?_
  obtain ⟨l, hl⟩ := readOperand_snd t r
  simp only [shiftExecutor, hl]
  rcases writeOperand_cases (t.access l) r (result (t.readOperand r).1 t.flags.c) with h | h <;> simp only [State.access_flags, h]
  · exact ⟨⟨l, rfl, rfl⟩, rfl, rfl, rfl⟩
  · exact ⟨(onlyAccessed_refl t).trans (onlyAccessed.trans ⟨l, rfl, rfl⟩ ⟨_, rfl, rfl⟩), rfl, rfl, rfl⟩

theorem Tame.branch (s : State) (cond : Flags → Bool) : Tame s 2 (branchExecutor cond) := by
  refine ⟨fun r t => ?_, fun r t ht => ht.congr ?_ ?_, fun r t => ?_⟩ <;>
    unfold branchExecutor <;> by_cases hc : cond t.flags = true <;> by_cases hx : r.crossed = true <;>
    simp [hc, hx, sameControl, Nat.add_assoc]

theorem Tame.store (s : State) (reg : State → Byte) : Tame s 0 (storeExecutor reg) :=
  Tame.of_accesses fun _ _ => ⟨⟨_, rfl, rfl⟩, rfl, rfl, rfl⟩

theorem Tame.stepMemory (s : State) (f : Byte → Byte) : Tame s 0 (stepMemoryExecutor f) :=
  Tame.of_accesses fun _ t => ⟨(onlyAccessed_afterRead t _).trans ⟨_, rfl, rfl⟩, rfl, rfl, rfl⟩

theorem Tame.push {s : State} (v : State → Byte) : Tame s 0 (fun _ t => t.push (v t)) :=
  Tame.of_accesses fun _ t => ⟨onlyAccessed_push t _, rfl, rfl, rfl⟩

/-- Making requests changes nothing but memory and the record. -/
theorem makeRequests_same (s : State) (l : List Request) :
    (s.makeRequests l).cycles = s.cycles ∧ sameControl s (s.makeRequests l) := by
  induction l generalizing s with
  | nil => exact ⟨rfl, rfl, rfl⟩
  | cons r rest ih => cases r <;> exact ih _

theorem Tame.illegal (s : State) (e : Config.IllegalEffect) : Tame s 0 (illegalExecutor e s) where
  control _ _ := ⟨rfl, rfl⟩
  accesses _ _ _ := (onlyAccessed_makeRequests s e.requests).congr rfl rfl
  cycles _ _ := ⟨Nat.le_refl _, Nat.le_add_right _ _⟩

/-- A meaning is the engine of R276 around a tame executor, on the instruction's descriptor and operand. -/
theorem exec_runForm (i : Instr) (s : State) :
    ∃ run, exec i s = runForm i.descriptor? i.operand run s ∧ Tame s (maxPenalty i.mnemonic) run := by
  cases i with
  | asl o | lsr o | rol o | ror o => exact ⟨_, rfl, Tame.shift s _ _⟩
  | and o | ora o | eor o => exact ⟨_, rfl, Tame.logic s _⟩
  | bcc o | bcs o | beq o | bne o | bpl o | bmi o | bvc o | bvs o => exact ⟨_, rfl, Tame.branch s _⟩
  | lda o | ldx o | ldy o => exact ⟨_, rfl, Tame.load fun _ _ => ⟨rfl, rfl, rfl, rfl, rfl⟩⟩
  | sta o | stx o | sty o => exact ⟨_, rfl, Tame.store s _⟩
  | inc o | dec o => exact ⟨_, rfl, Tame.stepMemory s _⟩
  | php => exact ⟨_, rfl, Tame.push fun t => t.flags.softwarePushed⟩
  | pha => exact ⟨_, rfl, Tame.push State.a⟩
  | adc o => exact ⟨_, rfl, Tame.of_read (f := fun m t => t.addToA m) fun _ _ => ⟨rfl, rfl, rfl, rfl, rfl⟩⟩
  | sbc o => exact ⟨_, rfl, Tame.of_read (f := fun m t => t.addToA (m ^^^ 0xFF)) fun _ _ => ⟨rfl, rfl, rfl, rfl, rfl⟩⟩
  | cmp o => exact ⟨_, rfl, Tame.of_read (f := fun m t => t.compareWith t.a m) fun _ _ => ⟨rfl, rfl, rfl, rfl, rfl⟩⟩
  | cpx o => exact ⟨_, rfl, Tame.of_read (f := fun m t => t.compareWith t.x m) fun _ _ => ⟨rfl, rfl, rfl, rfl, rfl⟩⟩
  | cpy o => exact ⟨_, rfl, Tame.of_read (f := fun m t => t.compareWith t.y m) fun _ _ => ⟨rfl, rfl, rfl, rfl, rfl⟩⟩
  | bit o =>
    exact ⟨_, rfl, Tame.of_read (f := fun m t => t.setFlags (t.flags.afterBit t.a m)) fun _ _ => ⟨rfl, rfl, rfl, rfl, rfl⟩⟩
  | jsr target => exact ⟨_, rfl, Tame.of_accesses fun _ t => ⟨(onlyAccessed_push16 t _).congr rfl rfl, rfl, rfl, rfl⟩⟩
  | rts => exact ⟨_, rfl, Tame.of_accesses fun _ t => ⟨(onlyAccessed_pull16 t).congr rfl rfl, rfl, rfl, rfl⟩⟩
  | plp | pla => exact ⟨_, rfl, Tame.of_accesses fun _ t => ⟨(onlyAccessed_pull t).congr rfl rfl, rfl, rfl, rfl⟩⟩
  | rti => exact ⟨_, rfl, Tame.of_accesses fun _ t => ⟨onlyAccessed_leaveHandler t, rfl, rfl, rfl⟩⟩
  | brk padding =>
    refine ⟨_, rfl, Tame.of_accesses fun _ t => ⟨onlyAccessed_enterHandler t _ _, ?_⟩⟩
    rw [State.enterHandler_eq]
    exact ⟨rfl, rfl, rfl⟩
  | illegal op o => exact ⟨_, rfl, Tame.illegal s _⟩
  | jmp o | tax | tay | txa | tya | tsx | txs | inx | iny | dex | dey | clc | sec | cli | sei | cld | sed | clv | nop =>
    exact ⟨_, rfl, Tame.of_same fun _ _ => ⟨rfl, rfl, rfl, rfl, rfl⟩⟩

/-- If an instruction answers a next state, it is a row of the table, performed with a tame executor. -/
theorem exec_next_cases {i : Instr} {s t : State} (h : exec i s = .next t) :
    ∃ d run, i.descriptor? = some d ∧ Tame s (maxPenalty i.mnemonic) run ∧ t = perform d i.operand run s := by
  obtain ⟨run, he, hrun⟩ := exec_runForm i s
  rw [he] at h
  cases hd : i.descriptor? with
  | none => simp [hd] at h
  | some d =>
    simp only [hd, runForm_some, Host.Outcome.next.injEq] at h
    exact ⟨d, run, rfl, hrun, h.symm⟩

end Sys2Proof.Machine
end

