-- ==== Sys2Proof/Laws/Flags.lean ====
section
/-! SUPPORT. The flag computations and the stack addresses in plain numbers. -/

namespace Sys2Proof.Machine

/-- Bit 7 of a byte is its sign (R9). -/
theorem bit_seven : ∀ v : Byte, bit v 7 = decide (128 ≤ v.toNat) := by
  decide +kernel

/-- Bit 0 of a byte is its parity (R9). -/
theorem bit_zero : ∀ v : Byte, bit v 0 = decide (v.toNat % 2 = 1) := by
  decide +kernel

/-- `SetZN` in plain terms (R34). -/
theorem Flags.setZN_eq (f : Flags) (v : Byte) : f.setZN v = withZN f v := by
  have h : ∀ v : Byte, (v == 0) = decide (v.toNat = 0) := by decide +kernel
  rw [Flags.setZN, withZN, h, bit_seven]

/-- `Compare` in plain terms (R122). -/
theorem Flags.afterCompare_eq (f : Flags) (a m : Byte) : f.afterCompare a m = comparedFlags f a m := by
  have ha := a.isLt
  have hm := m.isLt
  have h : bit (a - m) 7 = decide (128 ≤ ((a.toNat : Int) - m.toNat) % 256) := by
    rw [bit_seven, BitVec.toNat_sub, decide_eq_decide]
    omega
  rw [Flags.afterCompare, h]
  rfl

/-- A stack address lies in page 1 (R24). -/
theorem hiByte_stackAddr : ∀ sp : Byte, hiByte (stackAddr sp) = 1 := by
  decide +kernel

/-- Different stack pointers give different stack addresses (R24). -/
theorem stackAddr_inj {p q : Byte} (h : stackAddr p = stackAddr q) : p = q := by
  have low : ∀ sp : Byte, loByte (stackAddr sp) = sp := by decide +kernel
  rw [← low p, h, low]

/-- An address outside page 1 is no stack address (R24). -/
theorem ne_stackAddr {addr : Addr} (h : hiByte addr ≠ 1) (sp : Byte) : addr ≠ stackAddr sp := by
  rintro rfl
  exact h (hiByte_stackAddr sp)

end Sys2Proof.Machine
end

