-- ==== Sys2Proof/Laws/Meaning.lean ====
section
/-! SUPPORT. From a meaning to its next state: the executor runs in `after i s []`, the state in which everything common to all
instructions has been done. The cycles, which the engine adds last, may be added first, because no executor reads them. -/

namespace Sys2Proof.Machine

/-- Reading an operand does not depend on the cycles. -/
theorem readOperand_addCycles (t : State) (r : Resolved) (k : Nat) :
    (t.addCycles k).readOperand r = ((t.readOperand r).1, (t.readOperand r).2.addCycles k) := by
  obtain ⟨o, ea, crossed⟩ := r
  cases o <;> rfl

/-- An instruction whose executor does not read the cycles answers the executor's state over `after i s []`. -/
theorem exec_eq_after {i : Instr} {s : State} (run : Executor) (hd : ∃ d, i.descriptor? = some d)
    (he : exec i s = runForm i.descriptor? i.operand run s)
    (hc : ∀ r t k, run r (State.addCycles t k) = (run r t).addCycles k) :
    exec i s = .next (run (resolve i.operand s).1 (after i s [])) := by
  obtain ⟨d, hd⟩ := hd
  have h : after i s [] =
      ((s.access (resolverAccesses i.operand s)).setPc (s.pc + BitVec.ofNat 16 d.length)).addCycles
        (d.cycles + pageCost d (resolve i.operand s).1.crossed) := by
    simp [after, State.addCycles, State.setPc, Instr.size, Instr.cost, hd]
  rw [he, hd, runForm_some, perform_eq, h, hc]
  simp [State.addCycles, Nat.add_assoc]

/-- The same for an executor that reads its operand once and then goes on with the byte. -/
theorem exec_eq_read {i : Instr} {s : State} (f : Byte → State → State) (hd : ∃ d, i.descriptor? = some d)
    (he : exec i s = runForm i.descriptor? i.operand (fun r t => f (t.readOperand r).1 (t.readOperand r).2) s)
    (hc : ∀ v t k, f v (State.addCycles t k) = (f v t).addCycles k) :
    exec i s = .next (f (operandValue i.operand s) (after i s (operandAccesses i.operand s))) := by
  rw [exec_eq_after _ hd he (fun r t k => by simp only [readOperand_addCycles, hc])]
  rw [readOperand_resolve (s := s) (t := after i s []) rfl (by simp [after])]
  simp [after, State.access, Contract.replay_append]

end Sys2Proof.Machine
end

