-- ==== Sys2Proof/Laws/PerInstr.lean ====
section
/-! SUPPORT. A law of the encoder stated per instruction: a well-formed instruction is encoded in as many bytes as its
descriptor's length says (R80, R84). -/

namespace Sys2Proof.Laws.EncodedLength

/-- The encoding of a well-formed instruction has the length of its descriptor. -/
def Statement (i : Instr) : Prop := ∀ bytes, i.wf = true → encode i = some bytes → bytes.length = i.size

theorem adc (o : Operand) : Statement (.adc o) := by
  intro bytes hw h
  cases o <;> first | exact (Bool.false_ne_true hw).elim | (cases h; rfl)

theorem sbc (o : Operand) : Statement (.sbc o) := by
  intro bytes hw h
  cases o <;> first | exact (Bool.false_ne_true hw).elim | (cases h; rfl)

theorem cmp (o : Operand) : Statement (.cmp o) := by
  intro bytes hw h
  cases o <;> first | exact (Bool.false_ne_true hw).elim | (cases h; rfl)

theorem cpx (o : Operand) : Statement (.cpx o) := by
  intro bytes hw h
  cases o <;> first | exact (Bool.false_ne_true hw).elim | (cases h; rfl)

theorem cpy (o : Operand) : Statement (.cpy o) := by
  intro bytes hw h
  cases o <;> first | exact (Bool.false_ne_true hw).elim | (cases h; rfl)

theorem asl (o : Operand) : Statement (.asl o) := by
  intro bytes hw h
  cases o <;> first | exact (Bool.false_ne_true hw).elim | (cases h; rfl)

theorem lsr (o : Operand) : Statement (.lsr o) := by
  intro bytes hw h
  cases o <;> first | exact (Bool.false_ne_true hw).elim | (cases h; rfl)

theorem rol (o : Operand) : Statement (.rol o) := by
  intro bytes hw h
  cases o <;> first | exact (Bool.false_ne_true hw).elim | (cases h; rfl)

theorem ror (o : Operand) : Statement (.ror o) := by
  intro bytes hw h
  cases o <;> first | exact (Bool.false_ne_true hw).elim | (cases h; rfl)

theorem bit (o : Operand) : Statement (.bit o) := by
  intro bytes hw h
  cases o <;> first | exact (Bool.false_ne_true hw).elim | (cases h; rfl)

theorem and (o : Operand) : Statement (.and o) := by
  intro bytes hw h
  cases o <;> first | exact (Bool.false_ne_true hw).elim | (cases h; rfl)

theorem ora (o : Operand) : Statement (.ora o) := by
  intro bytes hw h
  cases o <;> first | exact (Bool.false_ne_true hw).elim | (cases h; rfl)

theorem eor (o : Operand) : Statement (.eor o) := by
  intro bytes hw h
  cases o <;> first | exact (Bool.false_ne_true hw).elim | (cases h; rfl)

theorem bcc (offset : Byte) : Statement (.bcc offset) := by
  intro bytes _ h
  cases h
  rfl

theorem bcs (offset : Byte) : Statement (.bcs offset) := by
  intro bytes _ h
  cases h
  rfl

theorem beq (offset : Byte) : Statement (.beq offset) := by
  intro bytes _ h
  cases h
  rfl

theorem bne (offset : Byte) : Statement (.bne offset) := by
  intro bytes _ h
  cases h
  rfl

theorem bpl (offset : Byte) : Statement (.bpl offset) := by
  intro bytes _ h
  cases h
  rfl

theorem bmi (offset : Byte) : Statement (.bmi offset) := by
  intro bytes _ h
  cases h
  rfl

theorem bvc (offset : Byte) : Statement (.bvc offset) := by
  intro bytes _ h
  cases h
  rfl

theorem bvs (offset : Byte) : Statement (.bvs offset) := by
  intro bytes _ h
  cases h
  rfl

theorem jsr (target : Addr) : Statement (.jsr target) := by
  intro bytes _ h
  cases h
  rfl

theorem rts : Statement .rts := by
  intro bytes _ h
  cases h
  rfl

theorem jmp (o : Operand) : Statement (.jmp o) := by
  intro bytes hw h
  cases o <;> first | exact (Bool.false_ne_true hw).elim | (cases h; rfl)

theorem php : Statement .php := by
  intro bytes _ h
  cases h
  rfl

theorem plp : Statement .plp := by
  intro bytes _ h
  cases h
  rfl

theorem pha : Statement .pha := by
  intro bytes _ h
  cases h
  rfl

theorem pla : Statement .pla := by
  intro bytes _ h
  cases h
  rfl

theorem lda (o : Operand) : Statement (.lda o) := by
  intro bytes hw h
  cases o <;> first | exact (Bool.false_ne_true hw).elim | (cases h; rfl)

theorem ldx (o : Operand) : Statement (.ldx o) := by
  intro bytes hw h
  cases o <;> first | exact (Bool.false_ne_true hw).elim | (cases h; rfl)

theorem ldy (o : Operand) : Statement (.ldy o) := by
  intro bytes hw h
  cases o <;> first | exact (Bool.false_ne_true hw).elim | (cases h; rfl)

theorem sta (o : Operand) : Statement (.sta o) := by
  intro bytes hw h
  cases o <;> first | exact (Bool.false_ne_true hw).elim | (cases h; rfl)

theorem stx (o : Operand) : Statement (.stx o) := by
  intro bytes hw h
  cases o <;> first | exact (Bool.false_ne_true hw).elim | (cases h; rfl)

theorem sty (o : Operand) : Statement (.sty o) := by
  intro bytes hw h
  cases o <;> first | exact (Bool.false_ne_true hw).elim | (cases h; rfl)

theorem tax : Statement .tax := by
  intro bytes _ h
  cases h
  rfl

theorem tay : Statement .tay := by
  intro bytes _ h
  cases h
  rfl

theorem txa : Statement .txa := by
  intro bytes _ h
  cases h
  rfl

theorem tya : Statement .tya := by
  intro bytes _ h
  cases h
  rfl

theorem tsx : Statement .tsx := by
  intro bytes _ h
  cases h
  rfl

theorem txs : Statement .txs := by
  intro bytes _ h
  cases h
  rfl

theorem inc (o : Operand) : Statement (.inc o) := by
  intro bytes hw h
  cases o <;> first | exact (Bool.false_ne_true hw).elim | (cases h; rfl)

theorem dec (o : Operand) : Statement (.dec o) := by
  intro bytes hw h
  cases o <;> first | exact (Bool.false_ne_true hw).elim | (cases h; rfl)

theorem inx : Statement .inx := by
  intro bytes _ h
  cases h
  rfl

theorem iny : Statement .iny := by
  intro bytes _ h
  cases h
  rfl

theorem dex : Statement .dex := by
  intro bytes _ h
  cases h
  rfl

theorem dey : Statement .dey := by
  intro bytes _ h
  cases h
  rfl

theorem clc : Statement .clc := by
  intro bytes _ h
  cases h
  rfl

theorem sec : Statement .sec := by
  intro bytes _ h
  cases h
  rfl

theorem cli : Statement .cli := by
  intro bytes _ h
  cases h
  rfl

theorem sei : Statement .sei := by
  intro bytes _ h
  cases h
  rfl

theorem cld : Statement .cld := by
  intro bytes _ h
  cases h
  rfl

theorem sed : Statement .sed := by
  intro bytes _ h
  cases h
  rfl

theorem clv : Statement .clv := by
  intro bytes _ h
  cases h
  rfl

theorem rti : Statement .rti := by
  intro bytes _ h
  cases h
  rfl

theorem nop : Statement .nop := by
  intro bytes _ h
  cases h
  rfl

theorem brk (padding : Byte) : Statement (.brk padding) := by
  intro bytes _ h
  cases h
  rfl

/-- In the table, an undocumented opcode is as long as the format of its mode (R84). -/
theorem illegal_length : ∀ op : Byte, (descriptor op).mnemonic = .illegal →
    (descriptor op).length = (operandOf (descriptor op).mode 0 0).bytes.length + 1 := by
  decide +kernel

theorem bytes_length_of_mode (o : Operand) : o.bytes.length = (operandOf o.mode 0 0).bytes.length := by
  cases o <;> simp [Operand.bytes, operandOf, Operand.mode]

theorem illegal (opcode : Byte) (o : Operand) : Statement (.illegal opcode o) := by
  intro bytes hw h
  have hw' := hw
  simp only [Instr.wf, undocumented, Bool.and_eq_true, beq_iff_eq] at hw'
  simp only [encode, Instr.opcode?, hw, if_true, Option.map_some, Option.some.injEq] at h
  subst h
  simp [Instr.size, Instr.descriptor?, illegalDescriptor, hw'.1, hw'.2, Instr.operandBytes, Instr.operand,
    illegal_length opcode hw'.1, bytes_length_of_mode o]

end Sys2Proof.Laws.EncodedLength
end

