-- ==== Sys2Proof/Laws/Step.lean ====
section
/-! SUPPORT. What a step can do, said once, and what happens before the fetch. -/

namespace Sys2Proof.Machine

/-- A step that answers a next state is a stall step or the instruction found after the interrupt decision. -/
theorem step_cases {s t : State} (h : step s = .next t) :
    (s.stall ≠ 0 ∧ t = s.stallStep) ∨
      (s.stall = 0 ∧ exec s.beginInstruction.fetchInstr s.beginInstruction.fetchOpcode = .next t) := by
  unfold step at h
  by_cases hs : s.stall = 0
  · rw [if_pos hs] at h
    exact .inr ⟨hs, h⟩
  · rw [if_neg hs] at h
    exact .inl ⟨hs, (Host.Outcome.next.inj h).symm⟩

/-- The service sequence in one record: the handler entered, the request cleared, 7 cycles. -/
theorem State.service_eq (s : State) (vector : Addr) :
    s.service vector =
      { s.enterHandler vector s.flags.hardwarePushed with interrupt := .none, cycles := s.cycles + 7 } := by
  simp [State.service, State.enterHandler_eq, State.setInterrupt, State.addCycles]

/-- Before the fetch, either nothing is serviced and the record of accesses begins anew, or the pending interrupt is. -/
theorem beginInstruction_cases (s : State) :
    (s.pendingVector = none ∧ s.beginInstruction = s.setBus []) ∨
      ∃ vector, s.pendingVector = some vector ∧ s.beginInstruction = (s.setBus []).service vector := by
  have hp : (s.setBus []).pendingVector = s.pendingVector := rfl
  unfold State.beginInstruction State.serviceIfPending
  rw [hp]
  cases hv : s.pendingVector with
  | none => exact .inl ⟨rfl, rfl⟩
  | some vector => exact .inr ⟨vector, rfl, rfl⟩

/-- What is serviced before the fetch reaches memory only by recorded accesses. -/
theorem onlyAccessed_beginInstruction (s : State) : onlyAccessed (s.setBus []) s.beginInstruction := by
  rcases beginInstruction_cases s with ⟨-, hb⟩ | ⟨vector, -, hb⟩ <;> rw [hb]
  · exact onlyAccessed_refl _
  · exact (onlyAccessed_enterHandler _ vector _).congr rfl rfl

/-- An instruction reaches memory only by recorded accesses. -/
theorem exec_onlyAccessed {i : Instr} {s t : State} (h : exec i s = .next t) : onlyAccessed s t := by
  obtain ⟨d, run, -, hrun, rfl⟩ := exec_next_cases h
  rw [perform_eq]
  exact (hrun.accesses _ ((s.access _).setPc _) ⟨_, rfl, rfl⟩).congr rfl rfl

/-- A step reaches memory only by recorded accesses. -/
theorem step_onlyAccessed {s t : State} (h : step s = .next t) : onlyAccessed (s.setBus []) t := by
  rcases step_cases h with ⟨-, rfl⟩ | ⟨-, he⟩
  · exact onlyAccessed_refl _
  · exact ((onlyAccessed_beginInstruction s).trans (onlyAccessed_afterRead _ _)).trans (exec_onlyAccessed he)

end Sys2Proof.Machine
end

