-- ==== Sys2Proof/Tests/Slice0.lean ====
section
/-! SUPPORT. Tests: words written out from the spec's encodings, the worked vectors of 95_test_vectors.md (each test names its
vector), and, for every statement with hypotheses, a state and operands that meet them. -/

namespace Sys2Proof.Tests

open Sys2Proof Sys2Proof.Machine

/-! ### Helpers -/

/-- The bytes of a program from an address on. -/
def load (m : Memory) (addr : Addr) : List Byte → Memory
  | [] => m
  | v :: rest => load (m.write addr v) (addr + 1) rest

/-- Plain RAM that holds these bytes. -/
def ram (cells : List (Addr × Byte)) : Contract := { Contract.plain with cells := Memory.writeAll [] cells }

/-- The base state of 95_test_vectors.md part 2: reset values, `PC` at the program, the given cells in memory. -/
def start (pc : Addr) (program : List Byte) (cells : List (Addr × Byte)) : State :=
  { State.reset with
    pc := pc, mem := { Contract.plain with cells := load (Memory.writeAll [] cells) pc program }, bus := [] }

/-- The outcome is a next state of which `p` holds. -/
def ends (r : Host.Outcome State Fault Refusal) (p : State → Bool) : Bool :=
  match r with
  | .next t => p t
  | .fault _ => false
  | .refused _ => false

/-- The term is refused as no form of the core. -/
def refused (r : Host.Outcome State Fault Refusal) : Bool :=
  match r with
  | .next _ => false
  | .fault _ => false
  | .refused why => why == .noSuchForm

/-! ### Well-formedness: one ill-formed term for each check -/

/-- A documented mnemonic in a mode it has not: no store immediate (R188), no `JMP` through a zero-page pointer (R167), no
`INC` of the accumulator (R205), no shift of an immediate (R131), `STX` indexed by X (R189). -/
theorem test_wf_refuses_missing_modes :
    (Instr.sta (.imm 1)).wf = false ∧ (Instr.jmp (.izx 1)).wf = false ∧ (Instr.inc .acc).wf = false ∧
      (Instr.asl (.imm 1)).wf = false ∧ (Instr.stx (.zpx 1)).wf = false := by decide

/-- An `illegal` term with a documented opcode byte, and one with another mode than its descriptor's (R104: 0x1C is ABX). -/
theorem test_wf_refuses_bad_illegal_terms :
    (Instr.illegal 0xEA .imp).wf = false ∧ (Instr.illegal 0x1C (.aby 0x12FF)).wf = false ∧
      (Instr.illegal 0x1C (.abx 0x12FF)).wf = true := by decide

/-- Such a term is refused by name, in any state (here after reset). -/
theorem test_ill_formed_term_is_refused :
    refused (exec (.sta (.imm 1)) State.reset) = true ∧ refused (exec (.illegal 0xEA .imp) State.reset) = true := by decide

/-! ### Decoding: words written out bit by bit from the encodings of R81, R102 and R104, every constructor among them -/

theorem test_decode_arithmetic :
    decode [0b01101001, 0b11110000] = .ok (.adc (.imm 0xF0), []) ∧
    decode [0b11110001, 0b11110000] = .ok (.sbc (.izy 0xF0), []) ∧
    decode [0b11011101, 0b11110000, 0b00010010] = .ok (.cmp (.abx 0x12F0), []) ∧
    decode [0b11100100, 0b11110000] = .ok (.cpx (.zp 0xF0), []) ∧
    decode [0b11001100, 0b11110000, 0b00010010] = .ok (.cpy (.abs 0x12F0), []) :=
  ⟨rfl, rfl, rfl, rfl, rfl⟩

theorem test_decode_shift :
    decode [0b00001010] = .ok (.asl .acc, []) ∧
    decode [0b01011110, 0b11110000, 0b00010010] = .ok (.lsr (.abx 0x12F0), []) ∧
    decode [0b00110110, 0b11110000] = .ok (.rol (.zpx 0xF0), []) ∧
    decode [0b01101110, 0b11110000, 0b00010010] = .ok (.ror (.abs 0x12F0), []) :=
  ⟨rfl, rfl, rfl, rfl⟩

theorem test_decode_logic :
    decode [0b00101100, 0b11110000, 0b00010010] = .ok (.bit (.abs 0x12F0), []) ∧
    decode [0b00110101, 0b11110000] = .ok (.and (.zpx 0xF0), []) ∧
    decode [0b00011001, 0b11110000, 0b00010010] = .ok (.ora (.aby 0x12F0), []) ∧
    decode [0b01000001, 0b11110000] = .ok (.eor (.izx 0xF0), []) :=
  ⟨rfl, rfl, rfl, rfl⟩

theorem test_decode_branch :
    decode [0b10010000, 0b11110000] = .ok (.bcc 0xF0, []) ∧
    decode [0b10110000, 0b11110000] = .ok (.bcs 0xF0, []) ∧
    decode [0b11110000, 0b11110000] = .ok (.beq 0xF0, []) ∧
    decode [0b11010000, 0b11110000] = .ok (.bne 0xF0, []) ∧
    decode [0b00010000, 0b11110000] = .ok (.bpl 0xF0, []) ∧
    decode [0b00110000, 0b11110000] = .ok (.bmi 0xF0, []) ∧
    decode [0b01010000, 0b11110000] = .ok (.bvc 0xF0, []) ∧
    decode [0b01110000, 0b11110000] = .ok (.bvs 0xF0, []) :=
  ⟨rfl, rfl, rfl, rfl, rfl, rfl, rfl, rfl⟩

theorem test_decode_jump :
    decode [0b00100000, 0b11110000, 0b00010010] = .ok (.jsr 0x12F0, []) ∧
    decode [0b01100000] = .ok (.rts, []) ∧
    decode [0b01101100, 0b11110000, 0b00010010] = .ok (.jmp (.ind 0x12F0), []) :=
  ⟨rfl, rfl, rfl⟩

theorem test_decode_stack :
    decode [0b00001000] = .ok (.php, []) ∧
    decode [0b00101000] = .ok (.plp, []) ∧
    decode [0b01001000] = .ok (.pha, []) ∧
    decode [0b01101000] = .ok (.pla, []) :=
  ⟨rfl, rfl, rfl, rfl⟩

theorem test_decode_load_store :
    decode [0b10100001, 0b11110000] = .ok (.lda (.izx 0xF0), []) ∧
    decode [0b10110110, 0b11110000] = .ok (.ldx (.zpy 0xF0), []) ∧
    decode [0b10111100, 0b11110000, 0b00010010] = .ok (.ldy (.abx 0x12F0), []) ∧
    decode [0b10010001, 0b11110000] = .ok (.sta (.izy 0xF0), []) ∧
    decode [0b10010110, 0b11110000] = .ok (.stx (.zpy 0xF0), []) ∧
    decode [0b10000100, 0b11110000] = .ok (.sty (.zp 0xF0), []) :=
  ⟨rfl, rfl, rfl, rfl, rfl, rfl⟩

theorem test_decode_transfer :
    decode [0b10101010] = .ok (.tax, []) ∧
    decode [0b10101000] = .ok (.tay, []) ∧
    decode [0b10001010] = .ok (.txa, []) ∧
    decode [0b10011000] = .ok (.tya, []) ∧
    decode [0b10111010] = .ok (.tsx, []) ∧
    decode [0b10011010] = .ok (.txs, []) :=
  ⟨rfl, rfl, rfl, rfl, rfl, rfl⟩

theorem test_decode_increment :
    decode [0b11111110, 0b11110000, 0b00010010] = .ok (.inc (.abx 0x12F0), []) ∧
    decode [0b11000110, 0b11110000] = .ok (.dec (.zp 0xF0), []) ∧
    decode [0b11101000] = .ok (.inx, []) ∧
    decode [0b11001000] = .ok (.iny, []) ∧
    decode [0b11001010] = .ok (.dex, []) ∧
    decode [0b10001000] = .ok (.dey, []) :=
  ⟨rfl, rfl, rfl, rfl, rfl, rfl⟩

theorem test_decode_flag :
    decode [0b00011000] = .ok (.clc, []) ∧
    decode [0b00111000] = .ok (.sec, []) ∧
    decode [0b01011000] = .ok (.cli, []) ∧
    decode [0b01111000] = .ok (.sei, []) ∧
    decode [0b11011000] = .ok (.cld, []) ∧
    decode [0b11111000] = .ok (.sed, []) ∧
    decode [0b10111000] = .ok (.clv, []) :=
  ⟨rfl, rfl, rfl, rfl, rfl, rfl, rfl⟩

theorem test_decode_system :
    decode [0b01000000] = .ok (.rti, []) ∧
    decode [0b11101010] = .ok (.nop, []) ∧
    decode [0b00000000, 0b11110000] = .ok (.brk 0xF0, []) ∧
    decode [0b00011100, 0b11110000, 0b00010010] = .ok (.illegal 0b00011100 (.abx 0x12F0), []) :=
  ⟨rfl, rfl, rfl, rfl⟩

/-- A list that ends too early holds no instruction; the bytes after an instruction are given back (R80). -/
theorem test_decode_rejects_truncated_bytes :
    decode [] = .error .noOpcode ∧ decode [0xA9] = .error .missingOperand ∧ decode [0x4C, 0x00] = .error .missingOperand ∧
      decode [0xEA, 0x60] = .ok (.nop, [0x60]) := ⟨rfl, rfl, rfl, rfl⟩

/-- Encoding, from the same rules: the opcode byte, then the operand bytes, low byte first. -/
theorem test_encode :
    encode (.lda (.abx 0x12F0)) = some [0xBD, 0xF0, 0x12] ∧ encode (.brk 0xFF) = some [0x00, 0xFF] ∧
      encode (.illegal 0x1C (.abx 0x12FF)) = some [0x1C, 0xFF, 0x12] ∧ encode (.sta (.imm 1)) = none := by decide

/-- The table's numbering: bit 0 is the least significant bit of the first byte; bits above `nbits` are 0. -/
theorem test_table_words :
    decodeTableWord 24 0x12F0BD = some (.lda (.abx 0x12F0)) ∧ decodeTableWord 8 0xEA = some .nop ∧
      decodeTableWord 8 0xFFA9 = some (.lda (.imm 0)) ∧ decodeTableWord 16 0x00 = some (.brk 0) := by decide

/-- The word placed for the host is what the very next step runs, even with stall owed and an interrupt pending
(notes/assumptions/10.md). -/
theorem test_withFetchWord_runs_next :
    ends (step (State.reset.withFetchWord 16 0x42A9)) (fun t => t.a == 0x42 && t.pc == 2 && t.cycles == 2) = true ∧
      ends (step (({ State.reset with stall := 9, interrupt := .nmi }).withFetchWord 16 0x42A9))
        (fun t => t.a == 0x42 && t.cycles == 2) = true := by decide

/-! ### One step of each instruction: vectors of 95_test_vectors.md -/

/-- Vector A6. -/
theorem test_A6_adc_carry_in_makes_overflow :
    ends (step { start 0x8000 [0x69, 0x00] [] with a := 0x7F, flags := Flags.unpack 0x25 })
      (fun t => t.a == 0x80 && t.flags.pack == 0xE4) = true := by decide

/-- Vector A9. -/
theorem test_A9_adc_page_crossed :
    ends (step { start 0x8000 [0x7D, 0xFF, 0x12] [(0x1300, 0x10)] with a := 0x01, x := 0x01 })
      (fun t => t.a == 0x11 && t.flags.pack == 0x24 && t.cycles == 5 && t.bus == [.rd 0x8000 0x7D, .rd 0x8001 0xFF, .rd 0x8002 0x12, .rd 0x1300 0x10]) = true := by decide

/-- Vector A12. -/
theorem test_A12_sbc_borrows_the_carry :
    ends (step { start 0x8000 [0xE9, 0x03] [] with a := 0x05 })
      (fun t => t.a == 0x01 && t.flags.pack == 0x25) = true := by decide

/-- Vector A14. -/
theorem test_A14_sbc_overflows :
    ends (step { start 0x8000 [0xE9, 0x01] [] with a := 0x80, flags := Flags.unpack 0x25 })
      (fun t => t.a == 0x7F && t.flags.pack == 0x65) = true := by decide

/-- Vector A19. -/
theorem test_A19_cmp_leaves_overflow :
    ends (step { start 0x8000 [0xC9, 0x01] [] with a := 0x80, flags := Flags.unpack 0x64 })
      (fun t => t.a == 0x80 && t.flags.pack == 0x65) = true := by decide

/-- Vector A20. -/
theorem test_A20_cpx :
    ends (step { start 0x8000 [0xE4, 0x10] [(0x0010, 0x7F)] with x := 0x80 })
      (fun t => t.x == 0x80 && t.flags.pack == 0x25 && t.cycles == 3) = true := by decide

/-- Vector A21. -/
theorem test_A21_cpy :
    ends (step (start 0x8000 [0xCC, 0x00, 0x03] [(0x0300, 0xFF)]))
      (fun t => t.y == 0x00 && t.flags.pack == 0x24 && t.cycles == 4) = true := by decide

/-- Vector H2. -/
theorem test_H2_asl_accumulator :
    ends (step { start 0x8000 [0x0A] [] with a := 0x80 })
      (fun t => t.a == 0x00 && t.flags.pack == 0x27 && t.pc == 0x8001) = true := by decide

/-- Vector H3. -/
theorem test_H3_asl_memory_reads_and_writes_once :
    ends (step { start 0x8000 [0x06, 0x10] [(0x0010, 0x40)] with a := 0x55 })
      (fun t => t.a == 0x55 && t.byteAt 0x0010 == 0x80 && t.flags.pack == 0xA4 && t.cycles == 5 && t.bus == [.rd 0x8000 0x06, .rd 0x8001 0x10, .rd 0x0010 0x40, .wr 0x0010 0x80]) = true := by decide

/-- Vector H5. -/
theorem test_H5_lsr_absolute_x_costs_seven :
    ends (step { start 0x8000 [0x5E, 0xFF, 0x01] [(0x0200, 0xFE)] with x := 0x01 })
      (fun t => t.byteAt 0x0200 == 0x7F && t.flags.pack == 0x24 && t.cycles == 7) = true := by decide

/-- Vector H6. -/
theorem test_H6_rol_takes_the_carry :
    ends (step { start 0x8000 [0x2A] [] with a := 0x80, flags := Flags.unpack 0x25 })
      (fun t => t.a == 0x01 && t.flags.pack == 0x25) = true := by decide

/-- Vector H10. -/
theorem test_H10_ror_zero_page_x_wraps :
    ends (step { start 0x8000 [0x76, 0xF0] [(0x0010, 0x01)] with x := 0x20, flags := Flags.unpack 0x25 })
      (fun t => t.byteAt 0x0010 == 0x80 && t.flags.pack == 0xA5 && t.cycles == 6 && t.bus == [.rd 0x8000 0x76, .rd 0x8001 0xF0, .rd 0x0010 0x01, .wr 0x0010 0x80]) = true := by decide

/-- Vector G2. -/
theorem test_G2_and :
    ends (step { start 0x8000 [0x29, 0xC3] [] with a := 0xAA })
      (fun t => t.a == 0x82 && t.flags.pack == 0xA4) = true := by decide

/-- Vector G3. -/
theorem test_G3_ora :
    ends (step { start 0x8000 [0x09, 0x80] [] with a := 0x01 })
      (fun t => t.a == 0x81 && t.flags.pack == 0xA4) = true := by decide

/-- Vector G6. -/
theorem test_G6_eor_indexed_indirect :
    ends (step { start 0x8000 [0x41, 0x20] [(0x0024, 0x00), (0x0025, 0x03), (0x0300, 0x0F)] with a := 0xF0, x := 0x04 })
      (fun t => t.a == 0xFF && t.flags.pack == 0xA4 && t.cycles == 6 && t.bus == [.rd 0x8000 0x41, .rd 0x8001 0x20, .rd 0x0024 0x00, .rd 0x0025 0x03, .rd 0x0300 0x0F]) = true := by decide

/-- Vector G7. -/
theorem test_G7_bit_copies_the_operand :
    ends (step { start 0x8000 [0x24, 0x10] [(0x0010, 0xC0)] with a := 0x01 })
      (fun t => t.a == 0x01 && t.flags.pack == 0xE6 && t.cycles == 3) = true := by decide

/-- Vector B1. -/
theorem test_B1_bne_not_taken :
    ends (step { start 0x8000 [0xD0, 0x10] [] with flags := Flags.unpack 0x26 })
      (fun t => t.pc == 0x8002 && t.cycles == 2 && t.bus == [.rd 0x8000 0xD0, .rd 0x8001 0x10]) = true := by decide

/-- Vector B13. -/
theorem test_B13_bne_wraps_past_the_top :
    ends (step (start 0xFFF0 [0xD0, 0x10] []))
      (fun t => t.pc == 0x0002 && t.cycles == 4) = true := by decide

/-- Vector B4. -/
theorem test_B4_beq_crosses_a_page :
    ends (step { start 0x80F0 [0xF0, 0x7F] [] with flags := Flags.unpack 0x26 })
      (fun t => t.pc == 0x8171 && t.cycles == 4) = true := by decide

/-- Vector B5. -/
theorem test_B5_bcc_crosses_backward :
    ends (step (start 0x8100 [0x90, 0xFD] []))
      (fun t => t.pc == 0x80FF && t.cycles == 4) = true := by decide

/-- Vector B11. -/
theorem test_B11_bcs_taken :
    ends (step { start 0x8000 [0xB0, 0x02] [] with flags := Flags.unpack 0x25 })
      (fun t => t.pc == 0x8004 && t.cycles == 3) = true := by decide

/-- Vector B7. -/
theorem test_B7_bpl_compares_with_the_next_address :
    ends (step (start 0x80FE [0x10, 0x00] []))
      (fun t => t.pc == 0x8100 && t.cycles == 3) = true := by decide

/-- Vector B8. -/
theorem test_B8_bmi_to_itself :
    ends (step { start 0x8000 [0x30, 0xFE] [] with flags := Flags.unpack 0xA4 })
      (fun t => t.pc == 0x8000 && t.cycles == 3) = true := by decide

/-- Vector B9. -/
theorem test_B9_bvc_largest_forward :
    ends (step (start 0x8000 [0x50, 0x7F] []))
      (fun t => t.pc == 0x8081 && t.cycles == 3) = true := by decide

/-- Vector B10. -/
theorem test_B10_bvs_largest_backward :
    ends (step { start 0x8000 [0x70, 0x80] [] with flags := Flags.unpack 0x64 })
      (fun t => t.pc == 0x7F82 && t.cycles == 4) = true := by decide

/-- Vector J3. -/
theorem test_J3_jmp_indirect_page_wrap :
    ends (step (start 0x8000 [0x6C, 0xFF, 0x02] [(0x02FF, 0x34), (0x0200, 0x12), (0x0300, 0x99)]))
      (fun t => t.pc == 0x1234 && t.cycles == 5 && t.bus == [.rd 0x8000 0x6C, .rd 0x8001 0xFF, .rd 0x8002 0x02, .rd 0x02FF 0x34, .rd 0x0200 0x12]) = true := by decide

/-- Vector J8. -/
theorem test_J8_jsr_stack_wraps :
    ends (step { start 0x8000 [0x20, 0x00, 0x90] [] with sp := 0x00 })
      (fun t => t.pc == 0x9000 && t.sp == 0xFE && t.byteAt 0x0100 == 0x80 && t.byteAt 0x01FF == 0x02) = true := by decide

/-- Vector J7. -/
theorem test_J7_rts_wraps :
    ends (step { start 0x8000 [0x60] [(0x0100, 0xFF), (0x0101, 0xFF)] with sp := 0xFF })
      (fun t => t.pc == 0x0000 && t.sp == 0x01 && t.bus == [.rd 0x8000 0x60, .rd 0x0100 0xFF, .rd 0x0101 0xFF]) = true := by decide

/-- Vector K2. -/
theorem test_K2_php_forces_bits_4_and_5 :
    ends (step { start 0x8000 [0x08] [] with flags := Flags.unpack 0xC3 })
      (fun t => t.sp == 0xFC && t.byteAt 0x01FD == 0xF3 && t.flags.pack == 0xE3) = true := by decide

/-- Vector K5. -/
theorem test_K5_plp_takes_b_and_forces_u :
    ends (step (start 0x8000 [0x28] [(0x01FE, 0xCF)]))
      (fun t => t.sp == 0xFE && t.flags.pack == 0xEF && t.flags.u) = true := by decide

/-- Vector K9. -/
theorem test_K9_pha_wraps :
    ends (step { start 0x8000 [0x48] [] with a := 0xAB, sp := 0x00 })
      (fun t => t.sp == 0xFF && t.byteAt 0x0100 == 0xAB && t.flags.pack == 0x24) = true := by decide

/-- Vector K7. -/
theorem test_K7_pla_sets_zero :
    ends (step { start 0x8000 [0x68] [(0x01FE, 0x00)] with a := 0x55 })
      (fun t => t.a == 0x00 && t.sp == 0xFE && t.flags.pack == 0x26 && t.cycles == 4) = true := by decide

/-- Vector L9. -/
theorem test_L9_lda_pointer_at_ff :
    ends (step (start 0x8000 [0xA1, 0xFF] [(0x00FF, 0x00), (0x0100, 0x04), (0x0000, 0x05), (0x0400, 0xAA), (0x0500, 0xBB)]))
      (fun t => t.a == 0xAA && t.cycles == 6 && t.bus == [.rd 0x8000 0xA1, .rd 0x8001 0xFF, .rd 0x00FF 0x00, .rd 0x0100 0x04, .rd 0x0400 0xAA]) = true := by decide

/-- Vector L28. -/
theorem test_L28_lda_operand_wraps :
    ends (step (start 0xFFFF [0xA9] [(0x0000, 0x42)]))
      (fun t => t.a == 0x42 && t.pc == 0x0001 && t.bus == [.rd 0xFFFF 0xA9, .rd 0x0000 0x42]) = true := by decide

/-- Vector L14. -/
theorem test_L14_ldx_absolute_y :
    ends (step { start 0x8000 [0xBE, 0xFF, 0x12] [(0x1300, 0x00)] with y := 0x01, x := 0x09 })
      (fun t => t.x == 0x00 && t.flags.pack == 0x26 && t.cycles == 5) = true := by decide

/-- Vector L15. -/
theorem test_L15_ldy_absolute_x :
    ends (step { start 0x8000 [0xBC, 0x00, 0x12] [(0x1201, 0x7F)] with x := 0x01 })
      (fun t => t.y == 0x7F && t.cycles == 4) = true := by decide

/-- Vector L18. -/
theorem test_L18_sta_indirect_indexed :
    ends (step { start 0x8000 [0x91, 0x10] [(0x0010, 0xFF), (0x0011, 0x20)] with a := 0x66, y := 0x01 })
      (fun t => t.byteAt 0x2100 == 0x66 && t.cycles == 6 && t.bus == [.rd 0x8000 0x91, .rd 0x8001 0x10, .rd 0x0010 0xFF, .rd 0x0011 0x20, .wr 0x2100 0x66]) = true := by decide

/-- Vector L20. -/
theorem test_L20_stx_zero_page_y_wraps :
    ends (step { start 0x8000 [0x96, 0x10] [] with x := 0x88, y := 0xFF })
      (fun t => t.byteAt 0x000F == 0x88 && t.cycles == 4) = true := by decide

/-- Vector L21. -/
theorem test_L21_sty :
    ends (step { start 0x8000 [0x8C, 0x34, 0x12] [] with y := 0x99 })
      (fun t => t.byteAt 0x1234 == 0x99 && t.cycles == 4) = true := by decide

/-- Vector L22. -/
theorem test_L22_tax :
    ends (step { start 0x8000 [0xAA] [] with a := 0x80 })
      (fun t => t.x == 0x80 && t.flags.pack == 0xA4 && t.cycles == 2) = true := by decide

/-- Vector L23. -/
theorem test_L23_tay :
    ends (step { start 0x8000 [0xA8] [] with y := 0x05 })
      (fun t => t.y == 0x00 && t.flags.pack == 0x26) = true := by decide

/-- Vector L24. -/
theorem test_L24_txa :
    ends (step { start 0x8000 [0x8A] [] with x := 0x7F })
      (fun t => t.a == 0x7F && t.flags.pack == 0x24) = true := by decide

/-- Vector L25. -/
theorem test_L25_tya :
    ends (step { start 0x8000 [0x98] [] with y := 0xFF })
      (fun t => t.a == 0xFF && t.flags.pack == 0xA4) = true := by decide

/-- Vector L26. -/
theorem test_L26_tsx :
    ends (step (start 0x8000 [0xBA] []))
      (fun t => t.x == 0xFD && t.flags.pack == 0xA4) = true := by decide

/-- Vector L27. -/
theorem test_L27_txs_sets_no_flag :
    ends (step (start 0x8000 [0x9A] []))
      (fun t => t.sp == 0x00 && t.flags.pack == 0x24 && t.cycles == 2) = true := by decide

/-- Vector I1. -/
theorem test_I1_inc_leaves_the_carry :
    ends (step { start 0x8000 [0xE6, 0x10] [(0x0010, 0xFF)] with flags := Flags.unpack 0x25 })
      (fun t => t.byteAt 0x0010 == 0x00 && t.flags.pack == 0x27 && t.cycles == 5 && t.bus == [.rd 0x8000 0xE6, .rd 0x8001 0x10, .rd 0x0010 0xFF, .wr 0x0010 0x00]) = true := by decide

/-- Vector I5. -/
theorem test_I5_dec_wraps :
    ends (step (start 0x8000 [0xC6, 0x10] [(0x0010, 0x00)]))
      (fun t => t.byteAt 0x0010 == 0xFF && t.flags.pack == 0xA4 && t.cycles == 5) = true := by decide

/-- Vector I7. -/
theorem test_I7_inx_wraps :
    ends (step { start 0x8000 [0xE8] [] with x := 0xFF })
      (fun t => t.x == 0x00 && t.flags.pack == 0x26 && t.cycles == 2) = true := by decide

/-- Vector I9. -/
theorem test_I9_iny :
    ends (step (start 0x8000 [0xC8] []))
      (fun t => t.y == 0x01 && t.flags.pack == 0x24) = true := by decide

/-- Vector I10. -/
theorem test_I10_dex_wraps :
    ends (step (start 0x8000 [0xCA] []))
      (fun t => t.x == 0xFF && t.flags.pack == 0xA4) = true := by decide

/-- Vector I12. -/
theorem test_I12_dey :
    ends (step { start 0x8000 [0x88] [] with y := 0x80 })
      (fun t => t.y == 0x7F && t.flags.pack == 0x24 && t.cycles == 2) = true := by decide

/-- Vector F1. -/
theorem test_F1_clc :
    ends (step { start 0x8000 [0x18] [] with flags := Flags.unpack 0xFF })
      (fun t => t.flags.pack == 0xFE && t.cycles == 2) = true := by decide

/-- Vector F2. -/
theorem test_F2_sec :
    ends (step { start 0x8000 [0x38] [] with flags := Flags.unpack 0x20 })
      (fun t => t.flags.pack == 0x21) = true := by decide

/-- Vector F3. -/
theorem test_F3_cli :
    ends (step { start 0x8000 [0x58] [] with flags := Flags.unpack 0xFF })
      (fun t => t.flags.pack == 0xFB) = true := by decide

/-- Vector F4. -/
theorem test_F4_sei :
    ends (step { start 0x8000 [0x78] [] with flags := Flags.unpack 0x20 })
      (fun t => t.flags.pack == 0x24) = true := by decide

/-- Vector F5. -/
theorem test_F5_cld :
    ends (step { start 0x8000 [0xD8] [] with flags := Flags.unpack 0xFF })
      (fun t => t.flags.pack == 0xF7) = true := by decide

/-- Vector F6. -/
theorem test_F6_sed :
    ends (step { start 0x8000 [0xF8] [] with flags := Flags.unpack 0x20 })
      (fun t => t.flags.pack == 0x28) = true := by decide

/-- Vector F7. -/
theorem test_F7_clv :
    ends (step { start 0x8000 [0xB8] [] with flags := Flags.unpack 0xFF })
      (fun t => t.flags.pack == 0xBF) = true := by decide

/-- Vector Y1. -/
theorem test_Y1_nop :
    ends (step (start 0x8000 [0xEA] []))
      (fun t => t.pc == 0x8001 && t.flags.pack == 0x24 && t.cycles == 2 && t.bus == [.rd 0x8000 0xEA]) = true := by decide

/-- Vector Y2. -/
theorem test_Y2_brk :
    ends (step (start 0x8000 [0x00, 0xFF] [(0xFFFE, 0x00), (0xFFFF, 0x90)]))
      (fun t => t.pc == 0x9000 && t.sp == 0xFA && t.flags.pack == 0x24 && t.cycles == 7 && t.bus == [.rd 0x8000 0x00, .wr 0x01FD 0x80, .wr 0x01FC 0x02, .wr 0x01FB 0x34, .rd 0xFFFE 0x00, .rd 0xFFFF 0x90]) = true := by decide

/-- Vector Y8. -/
theorem test_Y8_brk_at_the_top :
    ends (step (start 0xFFFF [0x00] []))
      (fun t => t.pc == 0x0000 && t.byteAt 0x01FD == 0x00 && t.byteAt 0x01FC == 0x01) = true := by decide

/-- Vector Y7. -/
theorem test_Y7_rti_wraps_the_stack :
    ends (step (start 0x8000 [0x40] [(0x01FE, 0xA1), (0x01FF, 0x34), (0x0100, 0x12)]))
      (fun t => t.pc == 0x1234 && t.sp == 0x00 && t.flags.pack == 0xA1 && t.bus == [.rd 0x8000 0x40, .rd 0x01FE 0xA1, .rd 0x01FF 0x34, .rd 0x0100 0x12]) = true := by decide

/-- Vector Y9: length and cost of two undocumented opcodes, under the instantiation "no other effect" of the parameter. -/
theorem test_Y9_illegal_length_and_cost :
    let keep (s : State) : Config.IllegalEffect :=
      { a := s.a, x := s.x, y := s.y, sp := s.sp, flags := s.flags, requests := [] }
    let s := { start 0x8000 [0x1C, 0xFF, 0x12] [] with x := 0x01 }
    ends (runIllegal (keep s) 0x02 .imp s) (fun t => t.pc == 0x8001 && t.cycles == 2) = true ∧
      ends (runIllegal (keep s) 0x1C (.abx 0x12FF) s) (fun t => t.pc == 0x8003 && t.cycles == 5 && t.x == 1) = true := by
  decide

/-- R232 on the machine itself, whose effect is a free value: an undocumented opcode completes with its length and cost. -/
theorem test_illegal_step_completes :
    ∃ t, step (start 0x8000 [0x02] []) = .next t ∧ t.pc = 0x8001 ∧ t.cycles = 2 := ⟨_, rfl, rfl, rfl⟩

/-! ### Interrupts, stall, reset, the environment -/

/-- The vectors and handlers of part 2.11, with a program at 0x8000. -/
def interruptible (program : List Byte) : State :=
  start 0x8000 program
    [(0xFFFA, 0x00), (0xFFFB, 0xA0), (0xFFFE, 0x00), (0xFFFF, 0xB0), (0xA000, 0xEA), (0xA001, 0x40), (0xB000, 0xEA),
      (0xB001, 0x40)]

/-- Vector T1. -/
theorem test_T1_nmi_is_not_masked :
    ends (step (EnvAction.triggerNmi.apply (interruptible [0xEA, 0xEA])))
      (fun t => t.pc == 0xA001 && t.sp == 0xFA && t.flags.pack == 0x24 && t.interrupt == .none && t.cycles == 9 &&
        t.bus == [.wr 0x01FD 0x80, .wr 0x01FC 0x00, .wr 0x01FB 0x24, .rd 0xFFFA 0x00, .rd 0xFFFB 0xA0, .rd 0xA000 0xEA]) =
      true := by decide

/-- Vector T2. -/
theorem test_T2_masked_irq_stays_pending :
    ends (step (EnvAction.triggerIrq.apply (interruptible [0xEA, 0xEA])))
      (fun t => t.pc == 0x8001 && t.sp == 0xFD && t.interrupt == .irq && t.cycles == 2) = true := by decide

/-- Vector T3, its first step. -/
theorem test_T3_irq_is_serviced :
    ends (step (EnvAction.triggerIrq.apply { interruptible [0xEA, 0xEA] with flags := Flags.unpack 0xA1 }))
      (fun t => t.pc == 0xB001 && t.sp == 0xFA && t.flags.pack == 0xA5 && t.byteAt 0x01FB == 0xA1 && t.cycles == 9) = true :=
  by decide

/-- Vectors T4 and T5: an NMI overwrites a pending IRQ, and an IRQ does not overwrite a pending NMI. -/
theorem test_T4_T5_nmi_wins :
    (EnvAction.triggerNmi.apply (EnvAction.triggerIrq.apply State.reset)).interrupt = .nmi ∧
      (EnvAction.triggerIrq.apply (EnvAction.triggerNmi.apply State.reset)).interrupt = .nmi := by decide

/-- Vector T7, its first step. -/
theorem test_T7_stall_delays_nmi :
    ends (step ((EnvAction.addStall 2).apply (EnvAction.triggerNmi.apply (interruptible [0xEA, 0xEA]))))
      (fun t => t.stall == 1 && t.cycles == 1 && t.interrupt == .nmi && t.bus == [] && t.pc == 0x8000) = true := by decide

/-- Vector T8: the pushed B is 0 although the stored B is 1. -/
theorem test_T8_hardware_pushes_b_clear :
    ends (step (EnvAction.triggerIrq.apply { interruptible [0xEA, 0xEA] with flags := Flags.unpack 0x30 }))
      (fun t => t.byteAt 0x01FB == 0x20 && t.flags.pack == 0x34) = true := by decide

/-- Vector T10: the largest documented step, and what it returns. -/
theorem test_T10_largest_step :
    let s := EnvAction.triggerNmi.apply
      { interruptible [0xEA, 0xEA] with mem := (interruptible [0xEA, 0xEA]).mem.write8 0xA000 0x00 }
    stepReturn s = 14 ∧ ends (step s) (fun t => t.pc == 0xB000 && t.sp == 0xF7 && t.byteAt 0x01F9 == 0x02) = true := by
  decide

/-- Vector T11. -/
theorem test_T11_stall_accumulates :
    ((EnvAction.addStall 2).apply ((EnvAction.addStall 3).apply State.reset)).stall = 5 := by decide

/-- Vector Z1. -/
theorem test_Z1_reset :
    let s := State.resetFrom (ram [(0xFFFC, 0x34), (0xFFFD, 0x12)])
    s.pc = 0x1234 ∧ s.sp = 0xFD ∧ s.flags.pack = 0x24 ∧ s.cycles = 0 ∧ s.interrupt = .none ∧ s.stall = 0 ∧
      s.bus = [.rd 0xFFFC 0x34, .rd 0xFFFD 0x12] := by decide

/-- Vector S1 and the rows of R32: Unpack, then Pack. -/
theorem test_S1_unpack_then_pack :
    (Flags.unpack 0x00).pack = 0x20 ∧ (Flags.unpack 0xDF).pack = 0xFF ∧ (Flags.unpack 0x10).pack = 0x30 ∧
      (Flags.unpack 0xC3).pack = 0xE3 := by decide

/-- Equal memories are equal data: writing what an unlisted byte reads as removes the entry, whatever the order of writes. -/
theorem test_memory_is_canonical :
    Memory.writeAll [] [(0x10, 1), (0x10, 0)] = [] ∧
      Memory.writeAll [] [(0x20, 2), (0x10, 1)] = Memory.writeAll [] [(0x10, 1), (0x20, 2)] := by decide

/-! ### The memory contract: mirrors, ROM, a device (R51, R52, R65) -/

/-- 2 KiB of RAM mirrored once, a device at 0x2000 to 0x2007, ROM from 0x8000 on; the rest plain RAM. -/
def mapped (cells : List (Addr × Byte)) : Contract :=
  { cells := Memory.writeAll [] cells
    windows :=
      [{ first := 0x0800, last := 0x0FFF, kind := .ram 0x0000 }, { first := 0x2000, last := 0x2007, kind := .device },
        { first := 0x8000, last := 0xFFFF, kind := .rom 0x8000 }]
    exchanges := [] }

/-- A write to a mirror is read at the mirrored address; a write to ROM is ignored (R52). -/
theorem test_mirror_and_rom :
    ends (exec (.sta (.abs 0x0810)) { State.reset with a := 0x42, mem := mapped [] })
        (fun t => t.byteAt 0x0010 == 0x42 && t.byteAt 0x0810 == 0x42 && t.byteAt 0x1010 == 0x00) = true ∧
      ends (exec (.inc (.abs 0x8010)) { State.reset with mem := mapped [(0x8010, 0x07)] })
        (fun t => t.byteAt 0x8010 == 0x07 && t.mem == mapped [(0x8010, 0x07)] && !t.flags.z) = true := by decide

/-- A load from a device makes one read there, which the device sees (R65); a store makes one write and no read. -/
theorem test_device_sees_each_access :
    (∃ t, exec (.lda (.abs 0x2002)) { State.reset with mem := mapped [] } = .next t ∧
        t.mem.exchanges = [.access (.read 0x2002)] ∧ t.pc = 3) ∧
      ∃ t, exec (.sta (.abs 0x2000)) { State.reset with a := 0x42, mem := mapped [] } = .next t ∧
        t.mem.exchanges = [.access (.write 0x2000 0x42)] := ⟨⟨_, rfl, rfl, rfl⟩, _, rfl, rfl⟩

/-- A device is free to answer the same read differently after it has seen one: the second read is asked of another contract. -/
theorem test_device_read_changes_the_contract :
    let m := mapped []
    (m.read8 0x2002).1 = Config.deviceByte m 0x2002 ∧
      ((m.read8 0x2002).2.read8 0x2002).1 =
        Config.deviceByte { m with exchanges := [.access (.read 0x2002)] } 0x2002 := ⟨rfl, rfl⟩

/-- The word placed for the host runs next where the program counter points at ROM and at a device as well. -/
theorem test_withFetchWord_over_rom_and_device :
    ends (step (({ State.reset with pc := 0x8000, mem := mapped [] }).withFetchWord 16 0x42A9)) (fun t => t.a == 0x42) = true ∧
      ends (step (({ State.reset with pc := 0x1FFF, mem := mapped [] }).withFetchWord 16 0x42A9)) (fun t => t.a == 0x42) =
        true := by decide

/-! ### Witnesses: the hypotheses of every statement can be met -/

theorem test_witness_WellFormedInstructionsRoundTrip :
    (Instr.adc (.abx 0xFFFF)).wf = true ∧ (Instr.brk 0xFF).wf = true ∧ (Instr.jsr 0).wf = true ∧
      (Instr.illegal 0x02 .imp).wf = true := by decide

theorem test_witness_EveryInstructionCompletes :
    (Instr.ror .acc).wf = true ∧ (Instr.ror (.imm 0)).wf = false := by decide

theorem test_witness_LengthFollowsModeAndPageCostIsForReads :
    (descriptor 0xBD).mnemonic ≠ .illegal ∧ (descriptor 0xBD).pageCycles = 1 ∧ (descriptor 0x9D).pageCycles = 0 ∧
      (descriptor 0x00).length = 2 := by decide

theorem test_witness_ResolverWritesNoState :
    resolverAccesses (.abs 0x1234) State.reset = [.rd 1 0x34, .rd 2 0x12] ∧ Operand.imp.mode = .imp ∧ Operand.acc.mode = .acc ∧ (Operand.imm 0xFF).mode = .imm ∧
      (resolve (.imm 0xFF) { State.reset with pc := 0xFFFF }).1.ea = 0 := by decide

/-- For PullGivesBackWhatPushStored, RtsUndoesJsr, PlpAfterPhpSetsOnlyBreak, RtiReturnsFromBrk, RtiReturnsFromInterrupt,
PushingFormsChangeOnlyTheirStackBytes and EnvironmentActions: the state after reset, one whose stack pointer wraps at the first
push, one with handlers at both vectors, and one whose stack page is RAM beside ROM, a mirror and a device. -/
theorem test_witness_canonical_states :
    (State.reset.canonical ∧ State.reset.stackIsRam) ∧
      (({ State.reset with sp := 0x00 }).canonical ∧ ({ State.reset with sp := 0x00 }).stackIsRam) ∧
      ((interruptible [0x00, 0xFF]).canonical ∧ (interruptible [0x00, 0xFF]).stackIsRam) ∧
      ({ State.reset with mem := mapped [] }).canonical ∧ ({ State.reset with mem := mapped [] }).stackIsRam ∧
      ({ State.reset with mem := mapped [] }).mem.cellAt 0x8010 ≠ none := by
  have inj : ∀ p q, stackAddr p = stackAddr q → p = q := fun _ _ => stackAddr_inj
  refine ⟨⟨?_, stackAddr, inj, fun _ => rfl⟩, ⟨?_, stackAddr, inj, fun _ => rfl⟩, ⟨?_, stackAddr, inj, fun _ => rfl⟩, ?_,
    ⟨stackAddr, inj, ?_⟩, ?_⟩
  case refine_5 => decide +kernel
  all_goals first | (unfold State.canonical; decide) | decide

/-- For AdcAddsWithCarry, SbcSubtractsWithBorrow, ComparesWriteCarryZeroNegative, ShiftsAndRotatesMoveOneBit,
BitTestsTheOperand, LogicInstructionsCombineWithA, LoadsReadOneByte, StoresWriteOneByte and IncAndDecStepMemory: modes their
mnemonics admit. -/
theorem test_witness_admitted_modes :
    Mnemonic.admits .adc .imm = true ∧ Mnemonic.admits .adc .izy = true ∧ Mnemonic.admits .sbc .imm = true ∧
      Mnemonic.admits .sbc .izy = true ∧ Mnemonic.admits .cmp .izx = true ∧ Mnemonic.admits .cpx .abs = true ∧
      Mnemonic.admits .cpy .imm = true ∧ Mnemonic.admits .asl .acc = true ∧ Mnemonic.admits .lsr .abx = true ∧
      Mnemonic.admits .rol .zpx = true ∧ Mnemonic.admits .ror .abs = true ∧ Mnemonic.admits .bit .zp = true ∧
      Mnemonic.admits .and .imm = true ∧ Mnemonic.admits .ora .aby = true ∧ Mnemonic.admits .eor .izx = true ∧
      Mnemonic.admits .jmp .abs = true ∧ Mnemonic.admits .jmp .ind = true ∧ Mnemonic.admits .lda .imm = true ∧
      Mnemonic.admits .ldx .zpy = true ∧ Mnemonic.admits .ldy .abx = true ∧ Mnemonic.admits .sta .izy = true ∧
      Mnemonic.admits .stx .zpy = true ∧ Mnemonic.admits .sty .zpx = true ∧ Mnemonic.admits .inc .abx = true ∧
      Mnemonic.admits .dec .zp = true := by decide

/-- Boundaries of the address statements, from the examples of R94, R96, R97 and R98: the last index before a page is crossed and
the first that crosses it, the largest offsets, a pointer at the end of its page, and one at 0xFF. -/
theorem test_witness_address_boundaries :
    let s := start 0x8000 [] [(0x02FF, 0x34), (0x0200, 0x12), (0x0300, 0x99), (0x00FF, 0x10), (0x0100, 0x07), (0x0000, 0x08)]
    (resolve (.abx 0x12F0) { s with x := 0x0F }).1 = ⟨.abx 0x12F0, 0x12FF, false⟩ ∧
      (resolve (.abx 0x12F0) { s with x := 0x10 }).1 = ⟨.abx 0x12F0, 0x1300, true⟩ ∧
      (resolve (.aby 0xFFF0) { s with y := 0x20 }).1 = ⟨.aby 0xFFF0, 0x0010, true⟩ ∧
      (resolve (.rel 0x7F) s).1 = ⟨.rel 0x7F, 0x8081, false⟩ ∧ (resolve (.rel 0x80) s).1 = ⟨.rel 0x80, 0x7F82, true⟩ ∧
      (resolve (.ind 0x02FF) s).1.ea = 0x1234 ∧ (resolve (.izy 0xFF) s).1.ea = 0x0710 ∧
      (resolve (.izx 0xFE) { s with x := 0x01 }).1.ea = 0x0710 ∧ (resolve (.zpx 0xF0) { s with x := 0x20 }).1.ea = 0x0010 := by
  decide

theorem test_witness_DecimalFlagNeverAffectsArithmetic :
    (∃ t, exec (.adc (.imm 1)) State.reset = .next t) ∧ (∃ t, exec (.sbc (.imm 1)) State.reset = .next t) := ⟨⟨_, rfl⟩, ⟨_, rfl⟩⟩

theorem test_witness_UndocumentedOpcodesHaveLengthAndCost :
    (Instr.illegal 0x1C (.abx 0x12FF)).wf = true ∧
      (resolve (.abx 0x12FF) { State.reset with x := 1 }).1.crossed = true ∧ (descriptor 0x1C).pageCycles = 1 ∧
      (resolve (.abx 0x12FF) State.reset).1.crossed = false ∧ (descriptor 0x02).pageCycles = 0 := by decide

theorem test_witness_FormsThatStoreNothingKeepMemory :
    (Instr.asl .acc).wf = true ∧ (Instr.asl .acc).mnemonic ∉ [.sta, .stx, .sty, .inc, .dec, .pha, .php, .jsr, .brk, .illegal] ∧
      (Instr.rti).wf = true ∧ (Instr.rti).mnemonic ∉ [.sta, .stx, .sty, .inc, .dec, .pha, .php, .jsr, .brk, .illegal] ∧
      (Instr.rti).mnemonic ∉ [.asl, .lsr, .rol, .ror] := by decide

theorem test_witness_StoringFormsChangeOneByte :
    (Instr.ror (.zpx 0xF0)).wf = true ∧ (Instr.ror (.zpx 0xF0)).mnemonic ∈ [.sta, .stx, .sty, .inc, .dec, .asl, .lsr, .rol, .ror] ∧
      (Instr.ror (.zpx 0xF0)).operand ≠ .acc ∧ State.reset.canonical := by unfold State.canonical; decide

/-- For StepRunsTheDecodedInstruction: an instruction across the top of memory with nothing to service, and, with an NMI to
service first, the first instruction of its handler. -/
theorem test_witness_StepRunsTheDecodedInstruction :
    let runs (s : State) (i : Instr) (rest : List Byte) : Prop :=
      let begun := s.beginInstruction
      let fetched := begun.afterRead begun.pc
      let next := fetched.afterRead (begun.pc + 1)
      s.stall = 0 ∧
        decode [begun.byteAt begun.pc, fetched.byteAt (begun.pc + 1), next.byteAt (begun.pc + 2)] = .ok (i, rest)
    runs (start 0xFFFF [0xA9, 0x42] []) (.lda (.imm 0x42)) [0] ∧
      runs (EnvAction.triggerNmi.apply (interruptible [0xA9, 0x42])) .nop [0x40, 0x00] := ⟨⟨rfl, rfl⟩, rfl, rfl⟩

theorem test_witness_StallStepOnlyCountsDown :
    0 < ((EnvAction.addStall 1).apply State.reset).stall := by decide

theorem test_witness_InterruptDecision :
    (EnvAction.triggerNmi.apply State.reset).interrupt = .nmi ∧ (EnvAction.triggerIrq.apply State.reset).interrupt = .irq ∧
      State.reset.flags.i = true ∧ (Flags.unpack 0x20).i = false ∧ State.reset.interrupt = .none := by decide

theorem test_witness_MaskedIrqStaysPending :
    let s := EnvAction.triggerIrq.apply (start 0x8000 [0xEA] [])
    s.interrupt = .irq ∧ s.flags.i = true ∧ ∃ t, step s = .next t := ⟨rfl, rfl, _, rfl⟩

theorem test_witness_InstructionsKeepInterruptAndStall :
    ∃ t, exec .nop { State.reset with interrupt := .irq, stall := 3 } = .next t := ⟨_, rfl⟩

theorem test_witness_NoDocumentedInstructionReadsCycles :
    (Instr.bne 0x80).wf = true ∧ (Instr.bne 0x80).mnemonic ≠ .illegal := by decide

theorem test_witness_SelfJumpChangesOnlyCycles :
    let s := EnvAction.triggerIrq.apply (start 0xFFFE [0x4C, 0xFE, 0xFF] [])
    s.stall = 0 ∧ s.interrupt = .irq ∧ s.pendingVector = none ∧
      readsFrom s [s.pc, s.pc + 1, s.pc + 2] = [.rd s.pc 0x4C, .rd (s.pc + 1) (loByte s.pc), .rd (s.pc + 2) (hiByte s.pc)] ∧
      ∀ k ∈ [s.pc, s.pc + 1, s.pc + 2], s.mem.cellAt k ≠ none := ⟨rfl, rfl, rfl, rfl, fun _ _ => Option.some_ne_none _⟩

theorem test_witness_ContractAnswersAccesses :
    (mapped []).wf = true ∧ (mapped []).place 0x0FFF = .cell 0x07FF true ∧ (mapped []).place 0x8000 = .cell 0x8000 false ∧
      (mapped []).place 0x2007 = .device ∧ (mapped []).place 0x2008 = .cell 0x2008 true := by decide

/-- For StepsKeepMemoryCanonical, StepCostIsBounded, StoredUStaysSet: a canonical state, U set, that runs a documented
instruction, and one that owes a stall; each has a next state. -/
theorem test_witness_steps :
    let s := start 0x8000 [0xEA] []
    let stalled := (EnvAction.addStall 1).apply s
    s.mem.wf = true ∧ s.flags.u = true ∧ s.stall = 0 ∧ s.beginInstruction.fetchInstr.mnemonic ≠ .illegal ∧
      (∃ t, step s = .next t) ∧ 0 < stalled.stall ∧ stalled.flags.u = true ∧ ∃ t, step stalled = .next t := by
  refine ⟨by decide, by decide, by decide, by decide, ⟨_, rfl⟩, by decide, by decide, ⟨_, rfl⟩⟩

/-- For ReachableStatesAreCanonicalAndGoOn: the state after reset is reachable, and so is one with an NMI requested. -/
theorem test_witness_reachable : Reachable State.reset ∧ Reachable (EnvAction.triggerNmi.apply State.reset) :=
  ⟨.reset Contract.plain rfl, .env _ _ (.reset Contract.plain rfl)⟩

end Sys2Proof.Tests
end

section
/-! PROOFS. The flag byte in numbers: `Pack`, `Unpack` and the pushed P bytes (R31 to R36). -/

namespace Sys2Proof.Machine

/-- A flag enters a packed byte as its truth value. -/
theorem bitValue_eq_toNat (f : Bool) : bitValue f = f.toNat := by
  cases f <;> rfl

/-- Bit `k` of a byte, in numbers (R9). -/
theorem bit_eq_div_mod (v : Byte) (k : Nat) : bit v k = decide (v.toNat / 2 ^ k % 2 = 1) := by
  rw [bit, BitVec.getLsbD, Nat.testBit_eq_decide_div_mod_eq]

/-- A flag is recovered from the parity it gives a number. -/
theorem decide_mod_two_eq {n : Nat} {f : Bool} (h : n % 2 = f.toNat) : decide (n % 2 = 1) = f := by
  rw [h]
  cases f <;> rfl

/-- Each packed flag is 0 or 1. -/
theorem Flags.toNat_le_one (f : Flags) : f.c.toNat ≤ 1 ∧ f.z.toNat ≤ 1 ∧ f.i.toNat ≤ 1 ∧ f.d.toNat ≤ 1 ∧ f.b.toNat ≤ 1 ∧
    f.v.toNat ≤ 1 ∧ f.n.toNat ≤ 1 :=
  ⟨f.c.toNat_le, f.z.toNat_le, f.i.toNat_le, f.d.toNat_le, f.b.toNat_le, f.v.toNat_le, f.n.toNat_le⟩

/-- The packed byte in numbers: the sum stays below 256. -/
theorem Flags.pack_toNat (f : Flags) : f.pack.toNat = f.c.toNat + 2 * f.z.toNat + 4 * f.i.toNat + 8 * f.d.toNat +
    16 * f.b.toNat + 32 + 64 * f.v.toNat + 128 * f.n.toNat := by
  obtain ⟨hc, hz, hi, hd, hb, hv, hn⟩ := f.toNat_le_one
  simp only [Flags.pack, bitValue_eq_toNat, BitVec.toNat_ofNat]
  omega

/-- Unpacking the packed byte gives back every flag but U, which becomes 1 (R33). -/
theorem Flags.unpack_pack (f : Flags) : Flags.unpack f.pack = { f with u := true } := by
  obtain ⟨hc, hz, hi, hd, hb, hv, hn⟩ := f.toNat_le_one
  simp only [Flags.unpack, bit_eq_div_mod, Flags.pack_toNat, Flags.mk.injEq]
  refine ⟨?_, ?_, ?_, ?_, ?_, trivial, ?_, ?_⟩ <;> apply decide_mod_two_eq <;> omega

/-- Packing the unpacked byte sets bit 5 (R33). -/
theorem Flags.pack_unpack : ∀ p : Byte, (Flags.unpack p).pack = p ||| 0x20 := by
  decide +kernel

/-- Forcing bits 4 and 5 of a byte to 1 packs its flags with B set. -/
theorem Flags.pack_unpack_setB : ∀ p : Byte, Flags.pack { Flags.unpack p with b := true } = p ||| 0x30 := by
  decide +kernel

/-- Forcing bit 4 of a byte to 0 and bit 5 to 1 packs its flags with B clear. -/
theorem Flags.pack_unpack_clearB : ∀ p : Byte, Flags.pack { Flags.unpack p with b := false } = (p &&& 0xEF) ||| 0x20 := by
  decide +kernel

/-- The byte `PHP` and `BRK` push is the flags packed with B and U set (R36). -/
theorem Flags.softwarePushed_eq (f : Flags) : f.softwarePushed = Flags.pack { f with b := true, u := true } := by
  rw [Flags.softwarePushed, ← Flags.pack_unpack_setB, Flags.unpack_pack]

/-- The byte an interrupt service pushes is the flags packed with B clear and U set (R36). -/
theorem Flags.hardwarePushed_eq (f : Flags) : f.hardwarePushed = Flags.pack { f with b := false, u := true } := by
  rw [Flags.hardwarePushed, ← Flags.pack_unpack_clearB, Flags.unpack_pack]

/-- Settles O12: the sum of the weighted flags and 32 is below 256, so that the byte is the sum. -/
theorem packPutsEachFlagInItsBit : Obligations.PackPutsEachFlagInItsBit :=
  Flags.pack_toNat

/-- Settles O13, by the two round trips between bytes and flags. -/
theorem unpackThenPackSetsBitFive : Obligations.UnpackThenPackSetsBitFive :=
  ⟨Flags.pack_unpack, Flags.unpack_pack⟩

/-- Settles O14: both pushed bytes are packed flags, and B weighs 16 in a packed byte. -/
theorem pushedFlagBytes : Obligations.PushedFlagBytes := by
  intro f
  refine ⟨f.softwarePushed_eq, f.hardwarePushed_eq, ?_⟩
  rw [f.softwarePushed_eq, f.hardwarePushed_eq, Flags.pack_toNat, Flags.pack_toNat]
  simp only [Bool.toNat_true, Bool.toNat_false]
  omega

end Sys2Proof.Machine
end

section
/-! PROOFS. The state after reset (R43, R44, R270). -/

namespace Sys2Proof.Machine

/-- The two reads of the vector leave plain RAM as it is. -/
@[simp] theorem State.reset_mem : State.reset.mem = Contract.plain := rfl

/-- In plain RAM every address is its own cell (R8). -/
@[simp] theorem Contract.plain_place (addr : Addr) : Contract.plain.place addr = .cell addr true := rfl

/-- In plain RAM nothing is listed, so that every cell reads 0. -/
theorem Contract.plain_read8 (addr : Addr) : Contract.plain.read8 addr = (0, Contract.plain) :=
  Contract.read8_of_cell (Contract.plain_place addr)

/-- A reset over a canonical contract gives a canonical state: it only reads the vector. -/
theorem State.resetFrom_canonical {m : Contract} (h : m.wf = true) : (State.resetFrom m).canonical :=
  Contract.read8_wf _ (Contract.read8_wf _ h)

/-- Settles O57: each field of `State.resetFrom` is the value of R43, and 0x24 unpacks to I and U. -/
theorem resetValues : Obligations.ResetValues := by
  intro m
  have hflags : (State.resetFrom m).flags = Flags.unpack 0x24 := rfl
  have hpack : (Flags.unpack 0x24).pack = 0x24 := Flags.pack_unpack 0x24
  exact ⟨rfl, rfl, by rw [hflags, hpack], by rw [hflags]; decide, rfl, rfl, rfl, rfl⟩

/-- Settles O58: plain RAM with nothing listed is canonical and reads 0, and the reset leaves it as it is. -/
theorem resetChoices : Obligations.ResetChoices := by
  refine ⟨rfl, State.resetFrom_canonical Memory.wf_nil, rfl, rfl, rfl, fun addr => ⟨?_, ?_⟩⟩
  · rw [State.byteAt, State.reset_mem, Contract.plain_read8]
  · rw [State.reset_mem, Contract.plain_place]

end Sys2Proof.Machine
end

section
/-! PROOFS. Updates of the state that no instruction of a family sees: they commute with the resolver, with the engine around an
executor, and with the executor. Two are used, a replaced D (R30) and a greater cycle count (R287). -/

namespace Sys2Proof.Machine

/-- An update of fields that the resolver, the engine of R276 and the reading of an operand do not read. -/
structure Unseen (u : State → State) : Prop where
  pc : ∀ s, (u s).pc = s.pc
  a : ∀ s, (u s).a = s.a
  x : ∀ s, (u s).x = s.x
  y : ∀ s, (u s).y = s.y
  mem : ∀ s, (u s).mem = s.mem
  /-- A read that takes place may come first. -/
  noteRead : ∀ s addr v, (u s).noteRead addr v = u (s.noteRead addr v)
  /-- Setting `PC` may come first. -/
  setPc : ∀ s w, (u s).setPc w = u (s.setPc w)
  /-- Adding cycles may come first. -/
  addCycles : ∀ s n, (u s).addCycles n = u (s.addCycles n)

/-- A byte read answers the same. -/
theorem Unseen.memRead {u : State → State} (hu : Unseen u) (s : State) (addr : Addr) :
    (u s).memRead addr = ((s.memRead addr).1, u (s.memRead addr).2) := by
  rw [State.memRead, State.byteAt_congr (hu.mem s), hu.noteRead, State.memRead]

/-- The resolver answers the same and makes the same reads. -/
theorem Unseen.resolve {u : State → State} (hu : Unseen u) (o : Operand) (s : State) :
    resolve o (u s) = ((resolve o s).1, u (resolve o s).2) := by
  cases o <;>
    simp only [Machine.resolve, State.readOperandWord, State.readOperandByte, State.memRead16, State.memRead16Bug, hu.pc,
      hu.x, hu.y, hu.noteRead, hu.memRead]

/-- The operand read is the same. -/
theorem Unseen.readOperand {u : State → State} (hu : Unseen u) (t : State) (r : Resolved) :
    (u t).readOperand r = ((t.readOperand r).1, u (t.readOperand r).2) := by
  obtain ⟨o, ea, crossed⟩ := r
  cases o <;> simp only [State.readOperand, hu.a, hu.noteRead, hu.memRead]

/-- The engine around an executor that does not see the update either. -/
theorem Unseen.perform {u : State → State} {run : Executor} (hu : Unseen u) (hrun : ∀ r t, run r (u t) = u (run r t))
    (d : Descriptor) (o : Operand) (s : State) : perform d o run (u s) = u (perform d o run s) := by
  simp only [Machine.perform, hu.resolve, hu.pc, hu.setPc, hrun, hu.addCycles]

/-- A form that answers a next state is a row of the table, performed. -/
theorem runForm_next_cases {d : Option Descriptor} {o : Operand} {run : Executor} {s t : State}
    (h : runForm d o run s = .next t) : ∃ row, d = some row ∧ t = perform row o run s := by
  cases d with
  | none => cases h
  | some row => exact ⟨row, rfl, (Host.Outcome.next.inj h).symm⟩

/-- A form performed with such an executor answers the updated next state. -/
theorem Unseen.runForm_next {u : State → State} {run : Executor} (hu : Unseen u)
    (hrun : ∀ r t, run r (u t) = u (run r t)) {d : Option Descriptor} {o : Operand} {s t : State}
    (h : runForm d o run s = .next t) : runForm d o run (u s) = .next (u t) := by
  obtain ⟨row, rfl, rfl⟩ := runForm_next_cases h
  rw [runForm_some, hu.perform hrun]

/-- D replaced (R30). -/
def State.setD (s : State) (d : Bool) : State := s.setFlags { s.flags with d := d }

/-- The engine and the reading of an operand read no flag. -/
theorem Unseen.setD (d : Bool) : Unseen (fun s => s.setD d) where
  pc _ := rfl
  a _ := rfl
  x _ := rfl
  y _ := rfl
  mem _ := rfl
  noteRead _ _ _ := rfl
  setPc _ _ := rfl
  addCycles _ _ := rfl

/-- The engine and the reading of an operand do not read the cycles; the engine adds to them. -/
theorem Unseen.moreCycles (k : Nat) : Unseen (fun s => s.addCycles k) where
  pc _ := rfl
  a _ := rfl
  x _ := rfl
  y _ := rfl
  mem _ := rfl
  noteRead _ _ _ := rfl
  setPc _ _ := rfl
  addCycles s n := by simp only [State.addCycles, Nat.add_right_comm]

/-- The addition reads C alone of the flags, and leaves D (R30, R121). -/
theorem State.addToA_setD (t : State) (m : Byte) (d : Bool) : (t.setD d).addToA m = (t.addToA m).setD d := rfl

/-- Settles O19: a replaced D is seen neither by the engine nor by the addition. -/
theorem decimalFlagNeverAffectsArithmetic : Obligations.DecimalFlagNeverAffectsArithmetic := by
  intro o s t d
  have hu := Unseen.setD d
  simp only [exec, execAdc, execSbc]
  constructor
  · exact hu.runForm_next fun r t => by simp only [hu.readOperand, State.addToA_setD]
  · exact hu.runForm_next fun r t => by simp only [hu.readOperand, State.addToA_setD]

end Sys2Proof.Machine
end

section
/-! PROOFS. What holds of every executor of a documented instruction, said once: it does not read `Cycles` (R37, R287), and it
never clears the stored U (R33). -/

namespace Sys2Proof.Machine

/-- What every documented executor keeps to. -/
structure Documented (run : Executor) : Prop where
  /-- `Cycles` is not read (R37). -/
  cycles : ∀ r t k, run r (State.addCycles t k) = (run r t).addCycles k
  /-- U is not cleared (R33). -/
  unused : ∀ r t, t.flags.u = true → (run r t).flags.u = true

/-- An executor that reads its operand and goes on with the byte. -/
theorem Documented.of_read {f : Byte → State → State} (hc : ∀ v t k, f v (State.addCycles t k) = (f v t).addCycles k)
    (hu : ∀ v t, t.flags.u = true → (f v t).flags.u = true) :
    Documented (fun r t => f (t.readOperand r).1 (t.readOperand r).2) where
  cycles r t k := by simp only [readOperand_addCycles, hc]
  unused r t h := by
    obtain ⟨l, hl⟩ := readOperand_snd t r
    exact hu _ _ (by rw [hl]; exact h)

theorem Documented.logic (op : Byte → Byte → Byte) : Documented (logicExecutor op) :=
  .of_read (f := fun m t => (t.setA (op t.a m)).setZN (op t.a m)) (fun _ _ _ => rfl) fun _ _ h => h

theorem Documented.load {put : State → Byte → State} (hc : ∀ t v k, put (State.addCycles t k) v = (put t v).addCycles k)
    (hu : ∀ t v, t.flags.u = true → (put t v).flags.u = true) : Documented (loadExecutor put) :=
  .of_read (f := fun m t => (put t m).setZN m) (fun v t k => by rw [hc]; rfl) fun v t h => hu t v h

/-- Writing an operand back does not read the cycles. -/
theorem writeOperand_addCycles (t : State) (r : Resolved) (v : Byte) (k : Nat) :
    (t.addCycles k).writeOperand r v = (t.writeOperand r v).addCycles k := by
  obtain ⟨o, ea, crossed⟩ := r
  cases o <;> rfl

theorem Documented.shift (outBit : Nat) (result : Byte → Bool → Byte) : Documented (shiftExecutor outBit result) where
  cycles r t k := by
    simp only [shiftExecutor, readOperand_addCycles, State.addCycles_flags, writeOperand_addCycles]
    rfl
  unused r t h := by
    obtain ⟨l, hl⟩ := readOperand_snd t r
    rw [shiftExecutor, hl]
    exact h

theorem Documented.branch (cond : Flags → Bool) : Documented (branchExecutor cond) where
  cycles r t k := by
    by_cases hc : cond t.flags <;> by_cases hx : r.crossed <;>
      simp [branchExecutor, hc, hx, State.addCycles, State.setPc, Nat.add_right_comm]
  unused r t h := by
    by_cases hc : cond t.flags <;> by_cases hx : r.crossed <;> simpa [branchExecutor, hc, hx] using h

/-- Entering a handler does not read the cycles. -/
theorem State.enterHandler_addCycles (s : State) (vector : Addr) (p : Byte) (k : Nat) :
    (s.addCycles k).enterHandler vector p = (s.enterHandler vector p).addCycles k := by
  rw [State.enterHandler_eq, State.enterHandler_eq]
  rfl

/-- Entering a handler sets at most I of the flags (R227, R248). -/
@[simp] theorem State.enterHandler_unused (s : State) (vector : Addr) (p : Byte) :
    (s.enterHandler vector p).flags.u = s.flags.u := by
  rw [State.enterHandler_eq]

theorem Documented.brk : Documented (fun _ t => t.enterHandler irqVector t.flags.softwarePushed) where
  cycles _ t k := t.enterHandler_addCycles irqVector _ k
  unused _ t h := (t.enterHandler_unused irqVector _).trans h

/-- A documented instruction is the engine of R276 around one such executor, in every state. -/
theorem exec_documented {i : Instr} (hi : i.mnemonic ≠ .illegal) :
    ∃ run, (∀ s, exec i s = runForm i.descriptor? i.operand run s) ∧ Documented run := by
  cases i with
  | illegal op o => exact absurd rfl hi
  | asl o | lsr o | rol o | ror o => exact ⟨_, fun _ => rfl, Documented.shift _ _⟩
  | bcc o | bcs o | beq o | bne o | bpl o | bmi o | bvc o | bvs o => exact ⟨_, fun _ => rfl, Documented.branch _⟩
  | adc o => exact ⟨_, fun _ => rfl, .of_read (f := fun m t => t.addToA m) (fun _ _ _ => rfl) fun _ _ h => h⟩
  | sbc o => exact ⟨_, fun _ => rfl, .of_read (f := fun m t => t.addToA (m ^^^ 0xFF)) (fun _ _ _ => rfl) fun _ _ h => h⟩
  | cmp o => exact ⟨_, fun _ => rfl, .of_read (f := fun m t => t.compareWith t.a m) (fun _ _ _ => rfl) fun _ _ h => h⟩
  | cpx o => exact ⟨_, fun _ => rfl, .of_read (f := fun m t => t.compareWith t.x m) (fun _ _ _ => rfl) fun _ _ h => h⟩
  | cpy o => exact ⟨_, fun _ => rfl, .of_read (f := fun m t => t.compareWith t.y m) (fun _ _ _ => rfl) fun _ _ h => h⟩
  | bit o =>
    exact ⟨_, fun _ => rfl, .of_read (f := fun m t => t.setFlags (t.flags.afterBit t.a m)) (fun _ _ _ => rfl) fun _ _ h => h⟩
  | and o | ora o | eor o => exact ⟨_, fun _ => rfl, Documented.logic _⟩
  | lda o | ldx o | ldy o => exact ⟨_, fun _ => rfl, Documented.load (fun _ _ _ => rfl) fun _ _ h => h⟩
  | brk padding => exact ⟨_, fun _ => rfl, Documented.brk⟩
  | plp | rti => exact ⟨_, fun _ => rfl, fun _ _ _ => rfl, fun _ _ _ => rfl⟩
  | jsr o | rts | jmp o | php | pha | pla | sta o | stx o | sty o | tax | tay | txa | tya | tsx | txs | inc o | dec o | inx
    | iny | dex | dey | clc | sec | cli | sei | cld | sed | clv | nop =>
    exact ⟨_, fun _ => rfl, fun _ _ _ => rfl, fun _ _ h => h⟩

/-- A documented instruction never clears the stored U (R33). -/
theorem exec_keeps_unused {i : Instr} {s t : State} (hi : i.mnemonic ≠ .illegal) (h : exec i s = .next t)
    (hu : s.flags.u = true) : t.flags.u = true := by
  obtain ⟨run, he, hrun⟩ := exec_documented hi
  rw [he] at h
  obtain ⟨row, -, rfl⟩ := runForm_next_cases h
  rw [perform_eq]
  exact hrun.unused _ _ hu

/-- Settles O50: more cycles on the counter are seen neither by the engine nor by a documented executor. -/
theorem noDocumentedInstructionReadsCycles : Obligations.NoDocumentedInstructionReadsCycles := by
  intro i s k hwf hi
  obtain ⟨run, he, hrun⟩ := exec_documented hi
  obtain ⟨d, hd⟩ := Option.isSome_iff_exists.1 ((Instr.wf_iff i).symm.trans hwf)
  have h : exec i s = .next (perform d i.operand run s) := by rw [he, hd, runForm_some]
  refine ⟨_, h, ?_⟩
  rw [he] at h ⊢
  exact (Unseen.moreCycles k).runForm_next (fun r t => hrun.cycles r t k) h

end Sys2Proof.Machine
end

section
/-! PROOFS. What the decoder finds has a descriptor: the row of the opcode byte (R82). -/

namespace Sys2Proof.Machine

/-- The operand made for a mode is of that mode. -/
@[simp] theorem mode_operandOf (mode : Mode) (b1 b2 : Byte) : (operandOf mode b1 b2).mode = mode := by
  cases mode <;> rfl

/-- The instruction of a row has the row's mnemonic. -/
@[simp] theorem mnemonic_instr (d : Descriptor) (b1 b2 : Byte) : (d.instr b1 b2).mnemonic = d.mnemonic := by
  unfold Descriptor.instr
  split <;> rename_i h <;> rw [h] <;> rfl

/-- A mnemonic with one form has that form's mode. -/
theorem mode_of_single_form {mode form : Mode} {op code : Byte} (h : [(form, code)].lookup mode = some op) : mode = form := by
  by_cases hform : mode = form
  · exact hform
  · rw [List.lookup_cons, beq_false_of_ne hform] at h
    cases h

/-- The operand of an instruction decoded from a documented row has the row's mode. -/
theorem mode_operand_instr {d : Descriptor} {op : Byte} (h : (forms d.mnemonic).lookup d.mode = some op) (b1 b2 : Byte) :
    (d.instr b1 b2).operand.mode = d.mode := by
  obtain ⟨opcode, mnemonic, mode, length, cycles, pageCycles⟩ := d
  cases mnemonic with
  | adc | sbc | cmp | cpx | cpy | asl | lsr | rol | ror | bit | and | ora | eor | jmp | lda | ldx | ldy | sta | stx | sty
    | inc | dec => exact mode_operandOf mode b1 b2
  | illegal => cases h
  | bcc | bcs | beq | bne | bpl | bmi | bvc | bvs | jsr | rts | php | plp | pha | pla | tax | tay | txa | tya | tsx | txs
    | inx | iny | dex | dey | clc | sec | cli | sei | cld | sed | clv | rti | nop | brk =>
    exact (mode_of_single_form h).symm

/-- The descriptor of a documented instruction is that of its mnemonic and mode. -/
theorem descriptor?_of_documented {i : Instr} (hi : i.mnemonic ≠ .illegal) :
    i.descriptor? = documentedDescriptor i.mnemonic i.operand.mode := by
  cases i with
  | illegal op o => exact absurd rfl hi
  | _ => rfl

/-- An instruction decoded from any bytes is described by the row of its opcode byte (R82). -/
theorem descriptor?_decodeBytes (op b1 b2 : Byte) : (decodeBytes op b1 b2).descriptor? = some (descriptor op) := by
  rw [decodeBytes]
  by_cases hm : (descriptor op).mnemonic = .illegal
  · simp [Descriptor.instr, hm, Instr.descriptor?, illegalDescriptor, descriptor_opcode]
  · have hform := documented_form op hm
    rw [descriptor?_of_documented (by rwa [mnemonic_instr]), mnemonic_instr, mode_operand_instr hform, documentedDescriptor,
      hform, Option.map_some]

/-- Every descriptor has a base cost (R102, R104). -/
theorem descriptor_cycles_pos : ∀ op : Byte, 0 < (descriptor op).cycles := by
  decide +kernel

end Sys2Proof.Machine
end

section
/-! PROOFS. What instructions, steps and the environment keep: the control fields (R38, R39), the stored U (R33), the canonical
memory (R270, R283), and the growth of `Cycles` (R40). -/

namespace Sys2Proof.Machine

/-- Settles O49: what the engine does beside the executor touches neither field, and the executor is tame. -/
theorem instructionsKeepInterruptAndStall : Obligations.InstructionsKeepInterruptAndStall := by
  intro i s t h
  obtain ⟨d, run, -, hrun, rfl⟩ := exec_next_cases h
  rw [perform_eq]
  exact hrun.control _ ((s.access _).setPc _)

/-- What happens before the fetch sets at most I of the flags (R248). -/
theorem beginInstruction_unused (s : State) : s.beginInstruction.flags.u = s.flags.u := by
  rcases beginInstruction_cases s with ⟨-, hb⟩ | ⟨vector, -, hb⟩ <;> rw [hb]
  · rfl
  · simp only [State.service, State.addCycles_flags, State.setInterrupt_flags, State.enterHandler_unused, State.setBus_flags]

/-- No action of the environment touches the flags (R283). -/
theorem EnvAction.apply_flags (act : EnvAction) (s : State) : (act.apply s).flags = s.flags := by
  cases act with
  | triggerIrq =>
    simp only [EnvAction.apply, State.triggerIrq]
    split <;> rfl
  | _ => rfl

/-- Settles O55: a stall step leaves the flags, a service sets I alone, and a documented instruction never clears U. -/
theorem storedUStaysSet : Obligations.StoredUStaysSet := by
  refine ⟨fun s t hu hrun h => ?_, fun s act hu => by rw [act.apply_flags]; exact hu⟩
  rcases step_cases h with ⟨-, rfl⟩ | ⟨hstall, he⟩
  · exact hu
  · have hi := hrun.resolve_right (by omega)
    exact exec_keeps_unused hi he ((beginInstruction_unused s).trans hu)

/-- Every action of the environment keeps the canonical form of memory. -/
theorem EnvAction.apply_canonical (act : EnvAction) {s : State} (h : s.canonical) : (act.apply s).canonical := by
  cases act with
  | triggerNmi | addStall n | readCycles => exact h
  | triggerIrq =>
    simp only [EnvAction.apply, State.triggerIrq]
    split <;> exact h
  | readMem addr => exact Contract.read8_wf addr h
  | writeMem addr v => exact Contract.write8_wf addr v h
  | writeMem16 addr w => exact Contract.write16_wf addr w h
  | stepPeripherals cells event => exact Memory.wf_writeAll cells h

/-- Every step keeps the canonical form of memory: it reaches memory by accesses alone. -/
theorem step_canonical {s t : State} (h : step s = .next t) (hs : s.canonical) : t.canonical :=
  (step_onlyAccessed h).wf hs

/-- Every reachable state has canonical memory. -/
theorem Reachable.canonical {s : State} (h : Reachable s) : s.canonical := by
  induction h with
  | reset m hm => exact State.resetFrom_canonical hm
  | step s t _ hs ih => exact step_canonical hs ih
  | env s act _ ih => exact act.apply_canonical ih

/-- An instruction with a descriptor answers a next state, and at least its base cost is added to the cycles. -/
theorem exec_next_of_descriptor {i : Instr} {d : Descriptor} (hd : i.descriptor? = some d) (s : State) :
    ∃ t, exec i s = .next t ∧ s.cycles + d.cycles ≤ t.cycles := by
  obtain ⟨run, he, hrun⟩ := exec_runForm i s
  refine ⟨perform d i.operand run s, by rw [he, hd, runForm_some], ?_⟩
  have hc := (hrun.cycles (resolve i.operand s).1
    ((s.access (resolverAccesses i.operand s)).setPc (s.pc + BitVec.ofNat 16 d.length))).1
  simp only [State.setPc_cycles, State.access_cycles] at hc
  rw [perform_eq]
  show s.cycles + d.cycles ≤ _ + d.cycles + _
  omega

/-- What happens before the fetch takes no cycles away. -/
theorem cycles_le_beginInstruction (s : State) : s.cycles ≤ s.beginInstruction.cycles := by
  rcases beginInstruction_cases s with ⟨-, hb⟩ | ⟨vector, -, hb⟩ <;> rw [hb]
  · exact Nat.le_refl _
  · rw [State.service_eq]
    exact Nat.le_add_right _ _

/-- From every state a step answers a next state with more cycles (R40, R240). -/
theorem step_next_cycles (s : State) : ∃ t, step s = .next t ∧ s.cycles < t.cycles := by
  unfold step
  split
  · have hd : s.beginInstruction.fetchInstr.descriptor? = _ := descriptor?_decodeBytes _ _ _
    obtain ⟨t, ht, hc⟩ := exec_next_of_descriptor hd s.beginInstruction.fetchOpcode
    have hb : s.cycles ≤ s.beginInstruction.fetchOpcode.cycles := cycles_le_beginInstruction s
    have hp := descriptor_cycles_pos (s.beginInstruction.byteAt s.beginInstruction.pc)
    exact ⟨t, ht, by omega⟩
  · exact ⟨s.stallStep, rfl, Nat.lt_succ_self _⟩

/-- Settles O56: canonical memory is an invariant of runs, and every step of every state answers one with more cycles. -/
theorem reachableStatesAreCanonicalAndGoOn : Obligations.ReachableStatesAreCanonicalAndGoOn :=
  fun s h => ⟨h.canonical, step_next_cycles s⟩

end Sys2Proof.Machine
end

section
/-! PROOFS. What the contract does for each kind of place (R51, R52), and that a step or an action of the environment reaches
memory through it alone (R50). -/

namespace Sys2Proof.Machine

/-- The two byte writes of `write16` leave the windows alone. -/
@[simp] theorem Contract.write16_windows (m : Contract) (addr w : Addr) : (m.write16 addr w).windows = m.windows := by
  rw [Contract.write16, Contract.write8_windows, Contract.write8_windows]

/-- Settles O60: each clause is the law of the contract for its kind of place; in canonical cells a write is read back at its own
address alone. -/
theorem contractAnswersAccesses : Obligations.ContractAnswersAccesses := by
  intro m addr c other v hm
  refine ⟨fun _ hp => Contract.read8_of_cell hp, fun hp => ?ram, Contract.write8_of_rom v, fun hp => ?device,
    Contract.place_congr (Contract.read8_windows m addr) other, Contract.place_congr (Contract.write8_windows m addr v) other⟩
  case ram =>
    rw [Contract.write8_of_ram v hp]
    simp only [Memory.read_write hm, eq_comm (a := other), and_self]
  case device =>
    rw [Contract.read8_of_device hp, Contract.write8_of_device v hp]
    exact ⟨rfl, rfl⟩

/-- After a step memory is what the recorded accesses, in order, made of it (R50, R281): the record began empty. -/
theorem step_mem {s t : State} (h : step s = .next t) : t.mem = s.mem.replay t.bus := by
  obtain ⟨l, hmem, hbus⟩ := step_onlyAccessed h
  rw [State.setBus_bus, List.nil_append] at hbus
  rw [hbus, hmem, State.setBus_mem]

/-- No action of the environment changes where an address leads. -/
theorem EnvAction.apply_windows (act : EnvAction) (s : State) : (act.apply s).mem.windows = s.mem.windows := by
  cases act with
  | triggerNmi | addStall n | readCycles => rfl
  | triggerIrq =>
    simp only [EnvAction.apply, State.triggerIrq]
    split <;> rfl
  | readMem addr => exact Contract.read8_windows s.mem addr
  | writeMem addr v => exact Contract.write8_windows s.mem addr v
  | writeMem16 addr w => exact Contract.write16_windows s.mem addr w
  | stepPeripherals cells event => rfl

/-- Settles O53: no access changes the windows or breaks the canonical form, so no sequence of accesses does, and a step is one;
an action is an access, a list of writes to cells, or no matter of memory. -/
theorem stepsKeepMemoryCanonical : Obligations.StepsKeepMemoryCanonical := by
  refine ⟨fun s t h => ⟨step_mem h, ?_, step_canonical h⟩, fun s act => ⟨act.apply_windows s, act.apply_canonical⟩⟩
  rw [step_mem h, Contract.replay_windows]

end Sys2Proof.Machine
end

section
/-! PROOFS. Words and their bytes in numbers, and the address of `Read16Bug`'s high byte (R9, R10, R54). -/

namespace Sys2Proof.Machine

/-- The low byte in numbers (R9). -/
theorem loByte_toNat (w : Addr) : (loByte w).toNat = w.toNat % 256 := BitVec.toNat_setWidth 8 w

/-- The high byte in numbers (R9). -/
theorem hiByte_toNat (w : Addr) : (hiByte w).toNat = w.toNat / 256 := by
  have := w.isLt
  rw [hiByte, BitVec.toNat_setWidth, BitVec.toNat_ushiftRight, Nat.shiftRight_eq_div_pow]
  omega

/-- A joined word in numbers (R10). -/
theorem word_toNat (hi lo : Byte) : (word hi lo).toNat = hi.toNat * 256 + lo.toNat := by
  have := hi.isLt
  have := lo.isLt
  rw [word, BitVec.toNat_ofNat]
  omega

/-- The mask of an address's page keeps the bits from 8 on. -/
theorem getElem_pageMask : ∀ (i : Nat) (hi : i < 16), (0xFF00 : Addr)[i] = decide (8 ≤ i) := by
  decide

/-- The mask of an address's low byte keeps the bits below 8. -/
theorem getElem_lowMask : ∀ (i : Nat) (hi : i < 16), (0x00FF : Addr)[i] = decide (i < 8) := by
  decide

/-- The next address within the page: the page of `addr`, and the low byte of the next address (R54). -/
theorem bugNext_eq_append (addr : Addr) : bugNext addr = hiByte addr ++ loByte (addr + 1) := by
  ext i hi
  rw [BitVec.getElem_append]
  simp only [bugNext, hiByte, loByte, BitVec.getElem_or, BitVec.getElem_and, getElem_pageMask i hi, getElem_lowMask i hi]
  by_cases h : i < 8
  · have hpage : ¬8 ≤ i := by omega
    simp only [h, hpage, decide_true, decide_false, Bool.and_true, Bool.and_false, Bool.false_or, dif_pos,
      BitVec.getElem_setWidth, BitVec.getLsbD_eq_getElem hi]
  · have hpage : 8 ≤ i := by omega
    have hshift : 8 + (i - 8) = i := by omega
    simp only [h, hpage, decide_true, decide_false, Bool.and_true, Bool.and_false, Bool.or_false, dif_neg, not_false_eq_true,
      BitVec.getElem_setWidth, BitVec.getLsbD_ushiftRight, hshift, BitVec.getLsbD_eq_getElem hi]

/-- The same in numbers (R54). -/
theorem bugNext_toNat (addr : Addr) : (bugNext addr).toNat = addr.toNat / 256 * 256 + (addr.toNat + 1) % 256 := by
  have hone : (1 : Addr).toNat = 1 := rfl
  rw [bugNext_eq_append, BitVec.toNat_append, ← Nat.shiftLeft_add_eq_or_of_lt (loByte (addr + 1)).isLt, Nat.shiftLeft_eq,
    hiByte_toNat, loByte_toNat, BitVec.toNat_add, hone]
  omega

/-- Settles O10: the resolver reads the pointer's two bytes after the operand bytes, the high one at `bugNext` of the pointer. -/
theorem indirectPointerStaysInItsPage : Obligations.IndirectPointerStaysInItsPage := by
  intro p s t
  have hnext : BitVec.ofNat 16 (p.toNat / 256 * 256 + (p.toNat + 1) % 256) = bugNext p := by
    rw [← bugNext_toNat, BitVec.ofNat_toNat, BitVec.setWidth_eq]
  have hread : s.readOperandWord p = t :=
    State.access_access s [.rd (s.pc + 1) (loByte p)] [.rd (s.pc + 2) (hiByte p)]
  refine ⟨?_, rfl⟩
  rw [hnext, ← word_toNat]
  simp only [resolve, hread, State.memRead16Bug_eq]

end Sys2Proof.Machine
end

section
/-! PROOFS. The stack page as RAM: what a push stores a pull answers, and pulls leave memory alone (R57 to R61). -/

namespace Sys2Proof.Machine

/-- `SP` after two pushes (R58). -/
theorem byte_sub_one_sub_one (p : Byte) : p - 1 - 1 = p - 2 := by
  bv_omega

/-- Accesses keep the canonical form of memory. -/
theorem State.canonical.access {s : State} (h : s.canonical) (l : List Access) : (s.access l).canonical :=
  Contract.replay_wf l h

/-- Accesses leave the stack page RAM. -/
theorem State.stackIsRam.access {s : State} (h : s.stackIsRam) (l : List Access) : (s.access l).stackIsRam := by
  obtain ⟨cell, hinj, hplace⟩ := h
  exact ⟨cell, hinj, fun p => (Contract.place_congr (Contract.replay_windows s.mem l) _).trans (hplace p)⟩

/-- A push keeps the canonical form of memory. -/
theorem State.canonical.push {s : State} (h : s.canonical) (v : Byte) : (s.push v).canonical :=
  h.access [.wr (stackAddr s.sp) v]

/-- A push leaves the stack page RAM. -/
theorem State.stackIsRam.push {s : State} (h : s.stackIsRam) (v : Byte) : (s.push v).stackIsRam :=
  h.access [.wr (stackAddr s.sp) v]

@[simp] theorem State.push_sp (s : State) (v : Byte) : (s.push v).sp = s.sp - 1 := rfl

@[simp] theorem State.pull_sp (s : State) : s.pull.2.sp = s.sp + 1 := rfl

/-- A push stores its byte at the stack address of `SP` and leaves the rest of the stack page (R57). -/
theorem State.byteAt_push {s : State} (hs : s.canonical) (hr : s.stackIsRam) (v q : Byte) :
    (s.push v).byteAt (stackAddr q) = if q = s.sp then v else s.byteAt (stackAddr q) := by
  obtain ⟨cell, hinj, hplace⟩ := hr
  have hq : s.mem.cellAt (stackAddr q) = some (cell q) := Contract.cellAt_eq_some.2 ⟨true, hplace q⟩
  have hq' : (s.push v).mem.cellAt (stackAddr q) = some (cell q) :=
    (Contract.cellAt_congr (Contract.write8_windows s.mem _ v) _).trans hq
  have hcell : (s.push v).mem.cells.read (cell q) = if cell s.sp = cell q then v else s.mem.cells.read (cell q) := by
    show (s.mem.write8 (stackAddr s.sp) v).cells.read (cell q) = _
    rw [Contract.write8_cell hs, hplace]
    simp only [Place.cell.injEq, and_true]
  have hinj' : cell s.sp = cell q ↔ q = s.sp := ⟨fun h => (hinj _ _ h).symm, fun h => h ▸ rfl⟩
  rw [State.byteAt_of_cellAt hq', State.byteAt_of_cellAt hq, hcell]
  simp only [hinj']

/-- A pull from RAM changes nothing in memory (R59). -/
theorem State.pull_mem {s : State} (hr : s.stackIsRam) : s.pull.2.mem = s.mem := by
  obtain ⟨cell, -, hplace⟩ := hr
  show (s.mem.read8 (stackAddr (s.sp + 1))).2 = s.mem
  rw [Contract.read8_of_cell (hplace _)]

/-- A pull after a push gives the byte (R61). -/
theorem State.pull_push {s : State} (hs : s.canonical) (hr : s.stackIsRam) (v : Byte) : (s.push v).pull.1 = v := by
  rw [State.pull_eq, State.push_sp, BitVec.sub_add_cancel, State.byteAt_push hs hr, if_pos rfl]

/-- A word pull after a word push gives the word: the low byte was pushed last, and the high byte lies above it (R58, R60). -/
theorem State.pull16_push16 {s : State} (hs : s.canonical) (hr : s.stackIsRam) (w : Addr) : (s.push16 w).pull16.1 = w := by
  have hhigh : (s.push16 w).pull.2.pull.1 = hiByte w := by
    have hmem : (s.push16 w).pull.2.mem = (s.push16 w).mem := State.pull_mem ((hr.push _).push _)
    have hsp : (s.push16 w).pull.2.sp + 1 = s.sp := by
      rw [State.pull_sp, State.push16, State.push_sp, State.push_sp, BitVec.sub_add_cancel, BitVec.sub_add_cancel]
    have hne : s.sp ≠ (s.push (hiByte w)).sp := by rw [State.push_sp]; bv_omega
    rw [State.pull_eq, hsp, State.byteAt_congr hmem, State.push16, State.byteAt_push (hs.push _) (hr.push _), if_neg hne,
      State.byteAt_push hs hr, if_pos rfl]
  calc (s.push16 w).pull16.1 = word (s.push16 w).pull.2.pull.1 (s.push16 w).pull.1 := rfl
    _ = word (hiByte w) (loByte w) := by rw [hhigh, State.push16, State.pull_push (hs.push _) (hr.push _)]
    _ = w := word_hiByte_loByte w

/-- Settles O15: the bytes by the laws of push and pull on RAM, `SP` by arithmetic modulo 256. -/
theorem pullGivesBackWhatPushStored : Obligations.PullGivesBackWhatPushStored := by
  intro s v w hs hr
  have hsp : s.sp - 1 - 1 + 1 + 1 = s.sp := by rw [BitVec.sub_add_cancel, BitVec.sub_add_cancel]
  exact ⟨⟨State.pull_push hs hr v, BitVec.sub_add_cancel s.sp 1, rfl⟩, State.pull16_push16 hs hr w, hsp,
    byte_sub_one_sub_one s.sp⟩

end Sys2Proof.Machine
end

section
/-! PROOFS. Which addresses an instruction stores to: the resolver stores nothing, a push stores one byte of the stack page (R57,
R86). -/

namespace Sys2Proof.Machine

/-- Reads are no writes. -/
theorem wr_not_mem_readsFrom (addrs : List Addr) (s : State) (addr : Addr) (v : Byte) :
    Access.wr addr v ∉ readsFrom s addrs := by
  induction addrs generalizing s with
  | nil => exact List.not_mem_nil
  | cons a rest ih =>
    simp only [readsFrom, readOf, List.mem_cons, reduceCtorEq, false_or]
    exact ih (s.afterRead a)

/-- The resolver writes nothing (R86). -/
theorem wr_not_mem_resolverAccesses (o : Operand) (s : State) (addr : Addr) (v : Byte) :
    Access.wr addr v ∉ resolverAccesses o s := by
  rw [resolverAccesses, List.mem_append, not_or]
  refine ⟨?_, wr_not_mem_readsFrom _ _ _ _⟩
  cases o <;> simp [operandByteReads]

/-- From `s` to `t` memory changes by accesses that write at the addresses `stored` alone. -/
def storesOnly (stored : List Addr) (s t : State) : Prop :=
  ∃ l, t.mem = s.mem.replay l ∧ ∀ addr v, Access.wr addr v ∈ l → addr ∈ stored

/-- Beside its own effect an instruction stores nothing (R86). -/
theorem storesOnly_after (i : Instr) (s : State) : storesOnly [] s (after i s []) := by
  refine ⟨resolverAccesses i.operand s ++ [], rfl, fun addr v h => ?_⟩
  rw [List.append_nil] at h
  exact absurd h (wr_not_mem_resolverAccesses i.operand s addr v)

/-- More may be listed than is stored. -/
theorem storesOnly.mono {stored more : List Addr} {s t : State} (h : storesOnly stored s t) (hsub : stored ⊆ more) :
    storesOnly more s t := by
  obtain ⟨l, hmem, hl⟩ := h
  exact ⟨l, hmem, fun addr v hw => hsub (hl addr v hw)⟩

/-- Accesses made on top of others, after which the contract is that of `u`. -/
theorem storesOnly.access {stored : List Addr} {s t u : State} (h : storesOnly stored s t) (l : List Access)
    (hmem : u.mem = t.mem.replay l) (hl : ∀ addr v, Access.wr addr v ∈ l → addr ∈ stored) : storesOnly stored s u := by
  obtain ⟨k, hk, hk'⟩ := h
  refine ⟨k ++ l, by rw [hmem, hk, Contract.replay_append], fun addr v hw => ?_⟩
  exact (List.mem_append.1 hw).elim (hk' addr v) (hl addr v)

/-- A read stores nothing (R51). -/
theorem storesOnly.afterRead {stored : List Addr} {s t : State} (h : storesOnly stored s t) (addr : Addr) :
    storesOnly stored s (t.afterRead addr) :=
  h.access [readOf t addr] rfl (by simp [readOf])

/-- Nor does setting `PC`. -/
theorem storesOnly.setPc {stored : List Addr} {s t : State} (h : storesOnly stored s t) (w : Addr) :
    storesOnly stored s (t.setPc w) := h

/-- A push stores at the stack address of `SP` (R57). -/
theorem storesOnly.push {stored : List Addr} {s t : State} (h : storesOnly stored s t) (v : Byte) :
    storesOnly (stored ++ [stackAddr t.sp]) s (t.push v) :=
  (h.mono (List.subset_append_left _ _)).access [.wr (stackAddr t.sp) v] rfl (by simp)

/-- Every byte but those stored reads as before. -/
theorem storesOnly.sameBytesExcept {stored : List Addr} {s t : State} (h : storesOnly stored s t) (hs : s.canonical) :
    sameBytesExcept stored s t := by
  obtain ⟨l, hmem, hl⟩ := h
  exact sameBytesExcept_of_replay hs hmem hl

/-- A word push stores at the stack addresses of `SP` and of the byte below (R58). -/
theorem storesOnly.push16 {stored : List Addr} {s t : State} (h : storesOnly stored s t) (w : Addr) :
    storesOnly (stored ++ pushed16 t.sp) s (t.push16 w) := by
  have hpushed : pushed16 t.sp = [stackAddr t.sp] ++ [stackAddr (t.push (hiByte w)).sp] := rfl
  rw [hpushed, ← List.append_assoc]
  exact (h.push (hiByte w)).push (loByte w)

/-- Entering a handler stores the three bytes it pushes (R227, R248): the vector is read, not written. -/
theorem storesOnly.enterHandler {stored : List Addr} {s t : State} (h : storesOnly stored s t) (vector : Addr) (p : Byte) :
    storesOnly (stored ++ (pushed16 t.sp ++ [stackAddr (t.sp - 2)])) s (t.enterHandler vector p) := by
  have hsp : (t.push16 t.pc).sp = t.sp - 2 := byte_sub_one_sub_one t.sp
  rw [← List.append_assoc, ← hsp]
  exact (((h.push16 t.pc).push p).afterRead vector).afterRead (vector + 1)

/-- Entering a handler sets I and lowers `SP` by 3; of the other registers and flags it writes `PC` alone (R227, R248). -/
theorem State.enterHandler_registers (t : State) (vector : Addr) (p : Byte) :
    let u := t.enterHandler vector p
    u.flags = { t.flags with i := true } ∧ u.sp = t.sp - 3 ∧ u.a = t.a ∧ u.x = t.x ∧ u.y = t.y ∧ sameControl t u := by
  have hsp : t.sp - 1 - 1 - 1 = t.sp - 3 := by bv_omega
  rw [State.enterHandler_eq]
  exact ⟨rfl, hsp, rfl, rfl, rfl, rfl, rfl⟩

/-- `PHA` (R177) over the state in which everything common to all instructions is done. -/
theorem exec_pha (s : State) : exec .pha s = .next ((after .pha s []).push s.a) :=
  exec_eq_after (i := .pha) (fun _ t => t.push t.a) ⟨_, rfl⟩ rfl fun _ _ _ => rfl

/-- `PHP` (R175), likewise. -/
theorem exec_php (s : State) : exec .php s = .next ((after .php s []).push s.flags.softwarePushed) :=
  exec_eq_after (i := .php) (fun _ t => t.push t.flags.softwarePushed) ⟨_, rfl⟩ rfl fun _ _ _ => rfl

/-- `JSR` (R165), likewise: `PC` is past the instruction. -/
theorem exec_jsr (target : Addr) (s : State) :
    exec (.jsr target) s = .next (((after (.jsr target) s []).push16 (s.pc + 3 - 1)).setPc target) :=
  exec_eq_after (i := .jsr target) (fun r t => (t.push16 (t.pc - 1)).setPc r.ea) ⟨_, rfl⟩ rfl fun _ _ _ => rfl

/-- `BRK` (R227), likewise. -/
theorem exec_brk (pad : Byte) (s : State) :
    exec (.brk pad) s = .next ((after (.brk pad) s []).enterHandler irqVector s.flags.softwarePushed) :=
  exec_eq_after (i := .brk pad) (fun _ t => t.enterHandler irqVector t.flags.softwarePushed) ⟨_, rfl⟩ rfl
    fun _ t k => t.enterHandler_addCycles irqVector _ k

/-- Settles O42: each form is its pushes over a state in which nothing was stored; the pushes move `SP` alone. -/
theorem pushingFormsChangeOnlyTheirStackBytes : Obligations.PushingFormsChangeOnlyTheirStackBytes := by
  intro s target pad hs keeps
  refine ⟨⟨_, exec_pha s, ?pha, rfl, rfl, rfl, rfl, rfl, rfl, rfl⟩, ⟨_, exec_php s, ?php, rfl, rfl, rfl, rfl, rfl, rfl, rfl⟩,
    ⟨_, exec_jsr target s, ?jsr, rfl, byte_sub_one_sub_one s.sp, rfl, rfl, rfl, rfl, rfl⟩,
    ⟨_, exec_brk pad s, ?brk, State.enterHandler_registers (after (.brk pad) s []) irqVector _⟩⟩
  case pha | php => exact ((storesOnly_after _ s).push _).sameBytesExcept hs
  case jsr => exact (((storesOnly_after _ s).push16 _).setPc target).sameBytesExcept hs
  case brk => exact ((storesOnly_after _ s).enterHandler _ _).sameBytesExcept hs

end Sys2Proof.Machine
end

section
/-! PROOFS. The rows of the opcode table: bytes spelled out, and the lengths and page-crossing costs of all 256 rows (R81, R84,
R85, R102, R104, R105). -/

namespace Sys2Proof.Machine

/-- Settles O3: the decoder evaluates to what R81, R85, R102 and R104 say of each of these bytes. -/
theorem spelledOutBytesDecode : Obligations.SpelledOutBytesDecode :=
  ⟨rfl, rfl, rfl, rfl, rfl, rfl, rfl, rfl, rfl, rfl, rfl, rfl, rfl, rfl, rfl, rfl, rfl⟩

/-- The length of a row is that of its mode's format, but for `BRK`, which has a padding byte (R84). -/
theorem descriptor_length : ∀ op : Byte, (descriptor op).length =
    if (descriptor op).mnemonic = .brk then 2 else (operandOf (descriptor op).mode 0 0).bytes.length + 1 := by
  decide +kernel

/-- No row is longer than three bytes (R80). -/
theorem descriptor_length_le : ∀ op : Byte, (descriptor op).length ≤ 3 := by
  decide +kernel

/-- Settles O4: the lengths by the format of each mode, the page-crossing costs by going through the 256 rows. -/
theorem lengthFollowsModeAndPageCostIsForReads : Obligations.LengthFollowsModeAndPageCostIsForReads := by
  intro op
  refine ⟨?length, ?pageCost⟩
  case length =>
    rw [descriptor_length op]
    by_cases hbrk : (descriptor op).mnemonic = .brk
    · rw [if_pos hbrk, if_pos hbrk]
    · rw [if_neg hbrk, if_neg hbrk]
      cases (descriptor op).mode <;> rfl
  case pageCost =>
    revert op
    decide +kernel

end Sys2Proof.Machine
end

section
/-! PROOFS. The encoder and the decoder undo each other (R80 to R85): both take the row that describes the instruction, and the
operand bytes of an instruction are its operand's, but for the padding byte of `BRK`. -/

namespace Sys2Proof.Machine

/-- The row that describes an undocumented opcode (R104). -/
theorem illegalDescriptor_eq_some {op : Byte} {mode : Mode} {d : Descriptor} : illegalDescriptor op mode = some d ↔
    ((descriptor op).mnemonic = .illegal ∧ (descriptor op).mode = mode) ∧ descriptor op = d := by
  rw [illegalDescriptor, Option.ite_none_right_eq_some, Option.some.injEq]

/-- The row that describes an instruction is the table's row at its opcode byte, of the instruction's mnemonic and mode (R82). -/
theorem descriptor?_row {i : Instr} {d : Descriptor} (hd : i.descriptor? = some d) :
    descriptor d.opcode = d ∧ d.mnemonic = i.mnemonic ∧ d.mode = i.operand.mode := by
  by_cases hi : i.mnemonic = .illegal
  · cases i with
    | illegal op o =>
      obtain ⟨⟨hm, hmode⟩, rfl⟩ := illegalDescriptor_eq_some.1 hd
      exact ⟨by rw [descriptor_opcode], hm, hmode⟩
    | _ => cases hi
  · rw [descriptor?_of_documented hi, documentedDescriptor, Option.map_eq_some_iff] at hd
    obtain ⟨op, hform, rfl⟩ := hd
    exact ⟨by rw [descriptor_opcode], forms_sound hform⟩

/-- The opcode byte of an instruction is that of the row that describes it. -/
theorem opcode?_eq (i : Instr) : i.opcode? = i.descriptor?.map Descriptor.opcode := by
  have hid : Descriptor.opcode ∘ descriptor = id := funext descriptor_opcode
  cases i with
  | illegal op o =>
    simp only [Instr.opcode?, Instr.wf, undocumented, Instr.descriptor?, illegalDescriptor, Bool.and_eq_true, beq_iff_eq]
    split
    · rw [Option.map_some, descriptor_opcode]
    · rfl
  | _ =>
    simp only [Instr.opcode?, Instr.descriptor?, documentedDescriptor, Option.map_map, hid, Option.map_id, id_eq]

/-- The encoding of an instruction: the opcode byte of its row, then its operand bytes (R80, R81). -/
theorem encode_of_descriptor? {i : Instr} {d : Descriptor} (hd : i.descriptor? = some d) :
    encode i = some (d.opcode :: i.operandBytes) := by
  rw [encode, opcode?_eq, hd, Option.map_some, Option.map_some]

/-- Only `BRK` has a byte that is no operand's (R227). -/
theorem operandBytes_of_ne_brk {i : Instr} (hi : i.mnemonic ≠ .brk) : i.operandBytes = i.operand.bytes := by
  cases i with
  | brk padding => exact absurd rfl hi
  | _ => rfl

/-- With its operand bytes an instruction is as long as its row says (R84). -/
theorem operandBytes_length {i : Instr} {d : Descriptor} (hd : i.descriptor? = some d) :
    i.operandBytes.length + 1 = d.length := by
  obtain ⟨hrow, hm, hmode⟩ := descriptor?_row hd
  have hlen := descriptor_length d.opcode
  rw [hrow, hm, hmode] at hlen
  by_cases hi : i.mnemonic = .brk
  · cases i with
    | brk padding => exact hlen.symm
    | _ => cases hi
  · rw [hlen, if_neg hi, operandBytes_of_ne_brk hi, Laws.EncodedLength.bytes_length_of_mode]

/-! ### Decoding what was encoded -/

/-- An operand is assembled again from its bytes (R85). -/
theorem operandOf_bytes (o : Operand) : operandOf o.mode (o.bytes.getD 0 0) (o.bytes.getD 1 0) = o := by
  cases o with
  | abs w | abx w | aby w | ind w => exact congrArg _ (word_hiByte_loByte w)
  | _ => rfl

/-- An instruction is decoded again from its row and its operand bytes (R82). -/
theorem instr_operandBytes {i : Instr} {d : Descriptor} (hd : i.descriptor? = some d) :
    d.instr (i.operandBytes.getD 0 0) (i.operandBytes.getD 1 0) = i := by
  obtain ⟨-, hm, hmode⟩ := descriptor?_row hd
  unfold Descriptor.instr
  rw [hm, hmode]
  cases i with
  | jsr target => exact congrArg Instr.jsr (word_hiByte_loByte target)
  | illegal op o =>
    obtain ⟨-, rfl⟩ := illegalDescriptor_eq_some.1 hd
    show Instr.illegal (descriptor op).opcode (operandOf o.mode (o.bytes.getD 0 0) (o.bytes.getD 1 0)) = _
    rw [descriptor_opcode, operandOf_bytes]
  | adc o | sbc o | cmp o | cpx o | cpy o | asl o | lsr o | rol o | ror o | bit o | and o | ora o | eor o | jmp o | lda o | ldx o
    | ldy o | sta o | stx o | sty o | inc o | dec o => exact congrArg _ (operandOf_bytes o)
  | _ => rfl

/-- The decoder takes as many bytes after the opcode as the row says, and leaves the rest (R81, R82). -/
theorem decode_cons_append {op : Byte} {operands : List Byte}
    (hlen : operands.length + 1 = (descriptor op).length) (rest : List Byte) :
    decode (op :: (operands ++ rest)) = .ok (decodeBytes op (operands.getD 0 0) (operands.getD 1 0), rest) := by
  match operands with
  | [] | [_] | [_, _] =>
    simp only [decode, ← hlen]
    rfl
  | _ :: _ :: _ :: _ =>
    have hle := descriptor_length_le op
    simp only [List.length_cons] at hlen
    omega

/-- Settles O1: the row that describes the instruction says how many bytes are its own, and they hold the whole operand. -/
theorem wellFormedInstructionsRoundTrip : Obligations.WellFormedInstructionsRoundTrip := by
  intro i hwf
  obtain ⟨d, hd⟩ := Option.isSome_iff_exists.1 ((Instr.wf_iff i).symm.trans hwf)
  obtain ⟨hrow, -, -⟩ := descriptor?_row hd
  refine ⟨_, encode_of_descriptor? hd, fun rest => ?_⟩
  have hlen : i.operandBytes.length + 1 = (descriptor d.opcode).length := by rw [hrow, operandBytes_length hd]
  rw [List.cons_append, decode_cons_append hlen, decodeBytes, hrow, instr_operandBytes hd]

/-! ### Encoding what was decoded -/

/-- The bytes of an assembled operand are the first of those it was assembled from (R85). -/
theorem bytes_operandOf (mode : Mode) (b1 b2 : Byte) : (operandOf mode b1 b2).bytes <+: [b1, b2] := by
  cases mode with
  | imp | acc => exact ⟨[b1, b2], rfl⟩
  | imm | zp | zpx | zpy | rel | izx | izy => exact ⟨[b2], rfl⟩
  | abs | abx | aby | ind => exact ⟨[], by simp only [operandOf, Operand.bytes, loByte_word, hiByte_word, List.append_nil]⟩

/-- The operand of a decoded instruction is assembled from the bytes decoded, in its own mode (R85). -/
theorem operand_instr (d : Descriptor) (b1 b2 : Byte) :
    (d.instr b1 b2).operand = operandOf (d.instr b1 b2).operand.mode b1 b2 := by
  have hown (mode : Mode) : operandOf mode b1 b2 = operandOf (operandOf mode b1 b2).mode b1 b2 := by rw [mode_operandOf]
  obtain ⟨opcode, mnemonic, mode, length, cycles, pageCycles⟩ := d
  cases mnemonic with
  | adc | sbc | cmp | cpx | cpy | asl | lsr | rol | ror | bit | and | ora | eor | jmp | lda | ldx | ldy | sta | stx | sty
    | inc | dec | illegal => exact hown mode
  | _ => rfl

/-- No byte after the opcode is changed by decoding and encoding: the operand bytes are the first of those decoded. -/
theorem operandBytes_decodeBytes (op b1 b2 : Byte) : (decodeBytes op b1 b2).operandBytes <+: [b1, b2] := by
  rw [decodeBytes]
  by_cases hbrk : (descriptor op).mnemonic = .brk
  · rw [Descriptor.instr, hbrk]
    exact ⟨[b2], rfl⟩
  · rw [operandBytes_of_ne_brk (by rwa [mnemonic_instr]), operand_instr]
    exact bytes_operandOf _ b1 b2

/-- Settles O2: the decoded instruction is described by the row of its opcode byte, and its operand bytes are as many of the bytes
decoded as the row says. -/
theorem decodingLosesNoBit : Obligations.DecodingLosesNoBit := by
  intro op b1 b2 i
  have hd : i.descriptor? = some (descriptor op) := descriptor?_decodeBytes op b1 b2
  obtain ⟨unused, hbytes⟩ : i.operandBytes <+: [b1, b2] := operandBytes_decodeBytes op b1 b2
  refine ⟨by rw [Instr.wf_iff, hd, Option.isSome_some], hd, descriptor_opcode op, ?_⟩
  rw [encode_of_descriptor? hd, descriptor_opcode, ← operandBytes_length hd, List.take_succ_cons, ← hbytes, List.take_left]

end Sys2Proof.Machine
end

section
/-! PROOFS. The resolver in numbers: the effective address and the page-crossed bit of each mode (R86 to R99). -/

namespace Sys2Proof.Machine

/-- A byte as an address (R10). -/
theorem zext_toNat (v : Byte) : (zext v).toNat = v.toNat := BitVec.toNat_setWidth_of_le (by decide)

/-- The page-crossed bit in numbers (R94 to R96, R99). -/
theorem pageCrossed_eq (origin ea : Addr) : pageCrossed origin ea = decide (ea.toNat / 256 ≠ origin.toNat / 256) := by
  rw [Bool.eq_iff_iff, decide_eq_true_iff, pageCrossed, bne_iff_ne, ← hiByte_toNat, ← hiByte_toNat, ne_eq, ne_eq,
    BitVec.toNat_inj]

/-- An index is added to an address modulo 65536 (R94, R95, R99). -/
theorem add_zext_toNat (w : Addr) (v : Byte) : (w + zext v).toNat = (w.toNat + v.toNat) % 65536 := by
  rw [BitVec.toNat_add, zext_toNat]

/-- A page is crossed by an index exactly if the low byte overflows (R94, R95). -/
theorem pageCrossed_add_zext (w : Addr) (v : Byte) :
    pageCrossed w (w + zext v) = decide (255 < w.toNat % 256 + v.toNat) := by
  have := w.isLt
  have := v.isLt
  rw [pageCrossed_eq, add_zext_toNat]
  exact decide_eq_decide.2 (by omega)

/-- Settles O6: the accesses are the resolver's own (`resolve_snd`), and none of them is a write. -/
theorem resolverWritesNoState : Obligations.ResolverWritesNoState := by
  intro o s
  refine ⟨resolve_snd o s, fun acc hacc => ?_, fun hmode => ?_, ?_⟩
  · cases acc with
    | rd addr v => exact ⟨addr, v, rfl⟩
    | wr addr v => exact absurd hacc (wr_not_mem_resolverAccesses o s addr v)
  · cases o with
    | imp | acc | imm v => exact ⟨rfl, rfl⟩
    | _ => simp only [Operand.mode, reduceCtorEq, or_self] at hmode
  · rintro v rfl
    exact BitVec.toNat_add s.pc 1

/-- Settles O7: the index is added to a byte, and the sum made an address. -/
theorem zeroPageAddresses : Obligations.ZeroPageAddresses := by
  intro b s
  have hadd (i : Byte) : (zext (b + i)).toNat = (b.toNat + i.toNat) % 256 := by rw [zext_toNat, BitVec.toNat_add]
  exact ⟨⟨zext_toNat b, rfl⟩, ⟨hadd s.x, rfl⟩, hadd s.y, rfl⟩

/-- Settles O8: the index is added to the address, and a page is crossed exactly if the low bytes overflow. -/
theorem absoluteAddresses : Obligations.AbsoluteAddresses := by
  intro w s
  exact ⟨⟨rfl, rfl⟩, ⟨add_zext_toNat w s.x, pageCrossed_eq w _, pageCrossed_add_zext w s.x⟩,
    add_zext_toNat w s.y, pageCrossed_eq w _, pageCrossed_add_zext w s.y⟩

/-- Settles O9: the sign-extended offset is the offset modulo 65536, and the sum is taken modulo 65536. -/
theorem relativeAddresses : Obligations.RelativeAddresses := by
  intro off s
  have htwo : (s.pc + 2).toNat = (s.pc.toNat + 2) % 65536 := BitVec.toNat_add s.pc 2
  constructor
  · show ((s.pc + 2 + sext off).toNat : Int) = _
    rw [BitVec.toNat_add, htwo, sext, BitVec.signExtend, BitVec.toNat_ofInt]
    omega
  · rw [← htwo]
    exact pageCrossed_eq _ _

/-- Settles O11: the word is joined from the two reads of `memRead16`, at the pointer's address and the next, which has 16 bits. -/
theorem zeroPagePointers : Obligations.ZeroPagePointers := by
  intro b s t wordAt
  have hword (p : Byte) : (t.memRead16 (zext p)).1.toNat = wordAt p.toNat := by
    have hlow : BitVec.ofNat 16 p.toNat = zext p := by rw [← zext_toNat, BitVec.ofNat_toNat, BitVec.setWidth_eq]
    have hhigh : BitVec.ofNat 16 (p.toNat + 1) = zext p + 1 := by rw [BitVec.ofNat_add, hlow]; rfl
    rw [State.memRead16_eq, word_toNat]
    simp only [wordAt, hlow, hhigh]
  have hx : (b + s.x).toNat = (b.toNat + s.x.toNat) % 256 := BitVec.toNat_add b s.x
  rw [← hx, ← hword (b + s.x), ← hword b]
  exact ⟨⟨rfl, rfl⟩, add_zext_toNat _ s.y, pageCrossed_eq _ _⟩

end Sys2Proof.Machine
end

section
/-! PROOFS. Addition with carry in integers, subtraction as the addition of the complement, and the compares (R120 to R126). -/

namespace Sys2Proof.Machine

/-! ### The sum with carry -/

/-- Bit 7 of a symmetric difference says that the signs differ (R9). -/
theorem bit_seven_xor (v w : Byte) : bit (v ^^^ w) 7 = !decide (128 ≤ v.toNat ↔ 128 ≤ w.toNat) := by
  have hbit : bit (v ^^^ w) 7 = (bit v 7 ^^ bit w 7) := BitVec.getLsbD_xor
  rw [hbit, bit_seven, bit_seven]
  by_cases hv : 128 ≤ v.toNat <;> by_cases hw : 128 ≤ w.toNat <;> simp [hv, hw]

/-- The sum of R121, with the carry as its truth value. -/
theorem adcSum_eq (a m : Byte) (carry : Bool) : adcSum a m carry = a.toNat + m.toNat + carry.toNat := by
  rw [adcSum, bitValue_eq_toNat]

/-- The result of R121 in numbers. -/
theorem adcResult_toNat (a m : Byte) (carry : Bool) :
    (adcResult a m carry).toNat = (a.toNat + m.toNat + carry.toNat) % 256 := by
  rw [adcResult, adcSum_eq, BitVec.toNat_ofNat]

/-- The V of R121 is signed overflow: two operands of one sign give a result of the other exactly if the signed sum with the carry
is out of range. -/
theorem adcOverflow_eq (a m : Byte) (carry : Bool) :
    (!bit (a ^^^ m) 7 && bit (a ^^^ adcResult a m carry) 7) =
      decide (a.toInt + m.toInt + carry.toNat < -128 ∨ 127 < a.toInt + m.toInt + carry.toNat) := by
  have := a.isLt
  have := m.isLt
  have := carry.toNat_le
  rw [bit_seven_xor, bit_seven_xor, adcResult_toNat, BitVec.toInt_eq_toNat_cond, BitVec.toInt_eq_toNat_cond, Bool.not_not,
    ← decide_not, ← Bool.decide_and, decide_eq_decide]
  split <;> split <;> omega

/-- The flags of R121 in integers. -/
theorem Flags.afterAdc_eq (f : Flags) (a m : Byte) :
    f.afterAdc a m =
      let sum := a.toNat + m.toNat + f.c.toNat
      let signed : Int := a.toInt + m.toInt + f.c.toNat
      { f with
        c := decide (255 < sum)
        v := decide (signed < -128 ∨ 127 < signed)
        z := decide (sum % 256 = 0)
        n := decide (128 ≤ sum % 256) } := by
  rw [Flags.afterAdc, Flags.setZN_eq, withZN, adcOverflow_eq, adcResult_toNat, adcSum_eq]

/-- `ADC` (R121): the addition, over the state in which everything common to all instructions is done. -/
theorem exec_adc {o : Operand} (s : State) (hadmits : Mnemonic.admits .adc o.mode = true) :
    exec (.adc o) s = .next ((after (.adc o) s (operandAccesses o s)).addToA (operandValue o s)) :=
  exec_eq_read (i := .adc o) (fun m t => t.addToA m) ((Mnemonic.admits_iff .adc o.mode).1 hadmits) rfl fun _ _ _ => rfl

/-- Settles O16: the encodings by evaluating the table; the addition in integers, after one read of the operand. -/
theorem adcAddsWithCarry : Obligations.AdcAddsWithCarry := by
  refine ⟨rfl, fun o s hadmits => ?_⟩
  rw [exec_adc s hadmits, State.addToA, adcResult, adcSum_eq, Flags.afterAdc_eq]
  rfl

/-! ### Subtraction -/

/-- The complement in numbers (R123). -/
theorem complement_toNat (m : Byte) : (m ^^^ 0xFF).toNat = 255 - m.toNat := by
  have h : m ^^^ 0xFF = ~~~m := BitVec.xor_allOnes
  rw [h, BitVec.toNat_not]

/-- The complement as a signed number (R123). -/
theorem complement_toInt (m : Byte) : (m ^^^ 0xFF).toInt = -m.toInt - 1 := by
  have := m.isLt
  rw [BitVec.toInt_eq_toNat_cond, BitVec.toInt_eq_toNat_cond, complement_toNat]
  split <;> split <;> omega

/-- Adding the complement with carry subtracts with borrow (R123). -/
theorem adcResult_complement (a m : Byte) (carry : Bool) :
    adcResult a (m ^^^ 0xFF) carry = BitVec.ofInt 8 ((a.toNat : Int) - m.toNat - (1 - carry.toNat)) := by
  have := m.isLt
  apply BitVec.eq_of_toNat_eq
  rw [adcResult_toNat, complement_toNat, BitVec.toNat_ofInt]
  omega

/-- The flags of the addition of a complement: those of the subtraction with borrow (R123). -/
theorem Flags.afterAdc_complement (f : Flags) (a m : Byte) :
    f.afterAdc a (m ^^^ 0xFF) =
      let diff : Int := (a.toNat : Int) - m.toNat - (1 - f.c.toNat)
      let signed : Int := a.toInt - m.toInt - (1 - f.c.toNat)
      { f with
        c := decide (0 ≤ diff)
        v := decide (signed < -128 ∨ 127 < signed)
        z := decide (diff % 256 = 0)
        n := decide (128 ≤ diff % 256) } := by
  have := m.isLt
  rw [Flags.afterAdc_eq, complement_toNat, complement_toInt]
  simp only [Flags.mk.injEq, decide_eq_decide, true_and]
  omega

/-- `SBC` (R123): the addition of the complement, likewise. -/
theorem exec_sbc {o : Operand} (s : State) (hadmits : Mnemonic.admits .sbc o.mode = true) :
    exec (.sbc o) s = .next ((after (.sbc o) s (operandAccesses o s)).addToA (operandValue o s ^^^ 0xFF)) :=
  exec_eq_read (i := .sbc o) (fun m t => t.addToA (m ^^^ 0xFF)) ((Mnemonic.admits_iff .sbc o.mode).1 hadmits) rfl
    fun _ _ _ => rfl

/-- Settles O17: the addition of the complement is the subtraction with borrow. -/
theorem sbcSubtractsWithBorrow : Obligations.SbcSubtractsWithBorrow := by
  refine ⟨rfl, fun o s hadmits => ?_⟩
  rw [exec_sbc s hadmits, State.addToA, adcResult_complement, Flags.afterAdc_complement]
  rfl

/-! ### Compare -/

/-- A compare writes the flags of R122 and nothing else. -/
theorem State.compareWith_eq (t : State) (reg m : Byte) :
    t.compareWith reg m = { t with flags := comparedFlags t.flags reg m } := by
  rw [State.compareWith, Flags.afterCompare_eq, State.setFlags]

/-- An instruction whose executor compares a register with its operand writes the flags of R122 and nothing else; the engine and
the read of the operand leave the register alone. -/
theorem exec_compare {i : Instr} {s : State} (reg : State → Byte) (hd : ∃ d, i.descriptor? = some d)
    (he : exec i s = runForm i.descriptor? i.operand
      (fun r t => (t.readOperand r).2.compareWith (reg (t.readOperand r).2) (t.readOperand r).1) s)
    (hcycles : ∀ t k, reg (State.addCycles t k) = reg t)
    (hafter : reg (after i s (operandAccesses i.operand s)) = reg s) :
    exec i s = .next { after i s (operandAccesses i.operand s) with
      flags := comparedFlags s.flags (reg s) (operandValue i.operand s) } := by
  rw [exec_eq_read (fun m t => t.compareWith (reg t) m) hd he (fun v t k => by rw [hcycles]; rfl), State.compareWith_eq, hafter]
  rfl

/-- Settles O18: each of the three compares its register. -/
theorem comparesWriteCarryZeroNegative : Obligations.ComparesWriteCarryZeroNegative := by
  refine ⟨rfl, rfl, rfl, fun o s => ⟨fun hadmits => ?cmp, fun hadmits => ?cpx, fun hadmits => ?cpy⟩⟩
  case cmp => exact exec_compare (i := .cmp o) State.a ((Mnemonic.admits_iff .cmp _).1 hadmits) rfl (fun _ _ => rfl) rfl
  case cpx => exact exec_compare (i := .cpx o) State.x ((Mnemonic.admits_iff .cpx _).1 hadmits) rfl (fun _ _ => rfl) rfl
  case cpy => exact exec_compare (i := .cpy o) State.y ((Mnemonic.admits_iff .cpy _).1 hadmits) rfl (fun _ _ => rfl) rfl

end Sys2Proof.Machine
end

section
/-! PROOFS. Shifts and rotates: the four results in numbers, and the shape the four instructions share (R130 to R135). -/

namespace Sys2Proof.Machine

/-! ### The results in numbers -/

/-- `ASL` doubles its operand modulo 256 (R131). -/
theorem aslResult_eq (v : Byte) : aslResult v = BitVec.ofNat 8 (v.toNat * 2) := by
  apply BitVec.eq_of_toNat_eq
  rw [aslResult, BitVec.toNat_shiftLeft, Nat.shiftLeft_eq, Nat.pow_one, BitVec.toNat_ofNat]

/-- `LSR` halves its operand, rounding down (R132). -/
theorem lsrResult_eq (v : Byte) : lsrResult v = BitVec.ofNat 8 (v.toNat / 2) := by
  have := v.isLt
  apply BitVec.eq_of_toNat_eq
  rw [lsrResult, BitVec.toNat_ushiftRight, Nat.shiftRight_eq_div_pow, BitVec.toNat_ofNat]
  omega

/-- `ROL` is `ASL` with the prior carry in the vacated bit 0: joining the carry adds it (R133). -/
theorem rolResult_eq (v : Byte) (carry : Bool) : rolResult v carry = BitVec.ofNat 8 (v.toNat * 2 + carry.toNat) := by
  have hvacated : ∀ (v : Byte) (carry : Bool), aslResult v &&& BitVec.ofNat 8 (bitValue carry) = 0 := by decide +kernel
  calc rolResult v carry = aslResult v ||| BitVec.ofNat 8 (bitValue carry) := rfl
    _ = aslResult v + BitVec.ofNat 8 (bitValue carry) := (BitVec.add_eq_or_of_and_eq_zero _ _ (hvacated v carry)).symm
    _ = BitVec.ofNat 8 (v.toNat * 2 + carry.toNat) := by rw [aslResult_eq, bitValue_eq_toNat, BitVec.ofNat_add]

/-- `ROR` is `LSR` with the prior carry in the vacated bit 7, where it weighs 128 (R134). -/
theorem rorResult_eq (v : Byte) (carry : Bool) :
    rorResult v carry = BitVec.ofNat 8 (v.toNat / 2 + 128 * carry.toNat) := by
  have hvacated : ∀ (v : Byte) (carry : Bool), lsrResult v &&& BitVec.ofNat 8 (bitValue carry * 128) = 0 := by decide +kernel
  calc rorResult v carry = lsrResult v ||| BitVec.ofNat 8 (bitValue carry * 128) := rfl
    _ = lsrResult v + BitVec.ofNat 8 (bitValue carry * 128) := (BitVec.add_eq_or_of_and_eq_zero _ _ (hvacated v carry)).symm
    _ = BitVec.ofNat 8 (v.toNat / 2 + 128 * carry.toNat) := by
      rw [lsrResult_eq, bitValue_eq_toNat, Nat.mul_comm, BitVec.ofNat_add]

/-- The flags of R130 in plain terms. -/
theorem Flags.afterShift_eq (f : Flags) (out : Bool) (r : Byte) : f.afterShift out r = { withZN f r with c := out } := by
  rw [Flags.afterShift, Flags.setZN_eq]
  rfl

/-! ### The shared shape -/

/-- The executor of a shift or rotate, run in the state in which everything common to all instructions is done: the operand is
read, and the result goes to where it was read from (R130). -/
theorem shiftExecutor_after (i : Instr) (s : State) (outBit : Nat) (result : Byte → Bool → Byte) :
    let v := operandValue i.operand s
    let res := result v s.flags.c
    shiftExecutor outBit result (resolve i.operand s).1 (after i s []) =
      (((after i s []).access (operandAccesses i.operand s)).writeOperand (resolve i.operand s).1 res).setFlags
        { withZN s.flags res with c := bit v outBit } := by
  have hread : (after i s []).readOperand (resolve i.operand s).1 =
      (operandValue i.operand s, (after i s []).access (operandAccesses i.operand s)) :=
    readOperand_resolve rfl (by simp only [after, State.access_mem, List.append_nil])
  have hflags : (after i s []).flags = s.flags := rfl
  simp only [shiftExecutor, hread, Flags.afterShift_eq, State.access_flags, hflags]

/-- An instruction with that executor answers the state of R130: in accumulator mode no access is made and A is replaced; in a
memory mode the one read of the effective address is followed by the one write. -/
theorem exec_shift {i : Instr} {s : State} {outBit r : Nat} {result : Byte → Bool → Byte} {out : Bool}
    (hd : ∃ d, i.descriptor? = some d) (he : exec i s = runForm i.descriptor? i.operand (shiftExecutor outBit result) s)
    (hresult : result (operandValue i.operand s) s.flags.c = BitVec.ofNat 8 r)
    (hout : bit (operandValue i.operand s) outBit = out) : exec i s = .next (shiftedState i i.operand s r out) := by
  rw [exec_eq_after _ hd he (Documented.shift outBit result).cycles, shiftExecutor_after, hresult, hout, writeOperand_eq,
    resolve_operand, shiftedState]
  by_cases hacc : i.operand = .acc
  · rw [if_pos hacc, if_pos hacc, operandAccesses, if_pos hacc, State.access_nil]
    rfl
  · rw [if_neg hacc, if_neg hacc, State.access_access]
    simp only [after, State.access, State.setFlags, effectiveAddr, List.append_nil, Contract.replay_append, List.append_assoc]

/-- Settles O20: the encodings by evaluating the table; each instruction is the shared shape with its own result and the bit at
the end toward which it moves. -/
theorem shiftsAndRotatesMoveOneBit : Obligations.ShiftsAndRotatesMoveOneBit := by
  refine ⟨rfl, rfl, rfl, rfl, fun o s => ⟨fun hadmits => ?asl, fun hadmits => ?lsr, fun hadmits => ?rol, fun hadmits => ?ror⟩⟩
  case asl => exact exec_shift (i := .asl o) ((Mnemonic.admits_iff .asl _).1 hadmits) rfl (aslResult_eq _) (bit_seven _)
  case lsr => exact exec_shift (i := .lsr o) ((Mnemonic.admits_iff .lsr _).1 hadmits) rfl (lsrResult_eq _) (bit_zero _)
  case rol => exact exec_shift (i := .rol o) ((Mnemonic.admits_iff .rol _).1 hadmits) rfl (rolResult_eq _ _) (bit_seven _)
  case ror => exact exec_shift (i := .ror o) ((Mnemonic.admits_iff .ror _).1 hadmits) rfl (rorResult_eq _ _) (bit_zero _)

end Sys2Proof.Machine
end

section
/-! PROOFS. The bit test, and the shape the three logic instructions share (R140 to R143). -/

namespace Sys2Proof.Machine

/-! ### The bit test -/

/-- Bit 6 of a byte, below its sign, weighs 64 (R9). -/
theorem bit_six (v : Byte) : bit v 6 = decide (64 ≤ v.toNat % 128) := by
  rw [bit, BitVec.getLsbD, Nat.testBit_eq_decide_div_mod_eq, decide_eq_decide]
  omega

/-- The flags of R140 in plain terms. -/
theorem Flags.afterBit_eq (f : Flags) (a m : Byte) :
    f.afterBit a m =
      { f with
        z := decide (a &&& m = 0)
        n := decide (128 ≤ m.toNat)
        v := decide (64 ≤ m.toNat % 128) } := by
  rw [Flags.afterBit, bit_seven, bit_six]
  rfl

/-- `BIT` (R140): the flags are replaced, over the state in which everything common to all instructions is done. -/
theorem exec_bit {o : Operand} (s : State) (hadmits : Mnemonic.admits .bit o.mode = true) :
    exec (.bit o) s =
      .next ((after (.bit o) s (operandAccesses o s)).setFlags (s.flags.afterBit s.a (operandValue o s))) :=
  exec_eq_read (i := .bit o) (fun m t => t.setFlags (t.flags.afterBit t.a m)) ((Mnemonic.admits_iff .bit o.mode).1 hadmits)
    rfl fun _ _ _ => rfl

/-- Settles O21: the encodings by evaluating the table; N and V are bits of the operand, whatever A holds. -/
theorem bitTestsTheOperand : Obligations.BitTestsTheOperand := by
  refine ⟨rfl, fun o s hadmits => ?_⟩
  rw [exec_bit s hadmits, Flags.afterBit_eq]
  rfl

/-! ### And, or, exclusive or -/

/-- An instruction whose executor combines A with its operand replaces A by the result, writes the Z and N of the result, and
nothing else (R141 to R143). -/
theorem exec_logic {i : Instr} {s : State} (op : Byte → Byte → Byte) (hd : ∃ d, i.descriptor? = some d)
    (he : exec i s = runForm i.descriptor? i.operand (logicExecutor op) s) :
    let res := op s.a (operandValue i.operand s)
    exec i s = .next { after i s (operandAccesses i.operand s) with a := res, flags := withZN s.flags res } := by
  rw [exec_eq_read (fun m t => (t.setA (op t.a m)).setZN (op t.a m)) hd he fun _ _ _ => rfl, State.setZN, Flags.setZN_eq]
  rfl

/-- Settles O22: the encodings by evaluating the table; each of the three combines A with the operand by its own operation. -/
theorem logicInstructionsCombineWithA : Obligations.LogicInstructionsCombineWithA := by
  refine ⟨rfl, rfl, rfl, fun o s => ⟨fun hadmits => ?and, fun hadmits => ?ora, fun hadmits => ?eor⟩⟩
  case and => exact exec_logic (i := .and o) (fun a m => a &&& m) ((Mnemonic.admits_iff .and _).1 hadmits) rfl
  case ora => exact exec_logic (i := .ora o) (fun a m => a ||| m) ((Mnemonic.admits_iff .ora _).1 hadmits) rfl
  case eor => exact exec_logic (i := .eor o) (fun a m => a ^^^ m) ((Mnemonic.admits_iff .eor _).1 hadmits) rfl

end Sys2Proof.Machine
end

section
/-! PROOFS. Branches: what the shared executor does, and the state an instruction around it answers (R150 to R158). -/

namespace Sys2Proof.Machine

/-- `Branch(cond)` (R150): taken, `PC` becomes the effective address and 1 cycle is added, or 2 across a page; not taken, nothing
changes. -/
theorem branchExecutor_eq (cond : Flags → Bool) (r : Resolved) (t : State) :
    branchExecutor cond r t =
      { t with
        pc := if cond t.flags then r.ea else t.pc
        cycles := t.cycles + if cond t.flags then (if r.crossed then 2 else 1) else 0 } := by
  by_cases hc : cond t.flags <;> by_cases hx : r.crossed <;>
    simp [branchExecutor, hc, hx, State.setPc, State.addCycles]

/-- The base cost 2 with that penalty, the following instruction at `next`, in plain numbers (R96, R279). -/
theorem branchCost_eq (taken : Bool) (next target : Addr) :
    2 + (if taken then (if pageCrossed next target then 2 else 1) else 0) =
      if taken then (if target.toNat / 256 = next.toNat / 256 then 3 else 4) else 2 := by
  rw [pageCrossed_eq]
  cases taken with
  | false => rfl
  | true => by_cases hsame : target.toNat / 256 = next.toNat / 256 <;> simp [hsame]

/-- An instruction of length 2 and base cost 2, with no page-crossing cost of its own, around that executor: it reads its offset
byte and branches (R150, R279). -/
theorem exec_branch {i : Instr} {s : State} {off : Byte} {cond : Flags → Bool} (ho : i.operand = .rel off)
    (hd : ∃ d, i.descriptor? = some d ∧ d.length = 2 ∧ d.cycles = 2 ∧ d.pageCycles = 0)
    (he : exec i s = runForm i.descriptor? i.operand (branchExecutor cond) s) :
    exec i s = .next (branchedState s off (cond s.flags)) := by
  obtain ⟨d, hrow, hlength, hcycles, hpage⟩ := hd
  have hsize : i.size = 2 := by simp only [Instr.size, hrow, hlength]
  have hcost : i.cost s = 2 := by simp [Instr.cost, hrow, hcycles, pageCost, hpage]
  rw [exec_eq_after _ ⟨d, hrow⟩ he (Documented.branch cond).cycles, branchExecutor_eq, after, ho, hsize, hcost, branchedState,
    ← branchCost_eq, ← Nat.add_assoc]
  rfl

/-- Settles O23: the encodings by evaluating the table; each of the eight is the shared executor with its own test of a flag. -/
theorem branchesTestTheirFlag : Obligations.BranchesTestTheirFlag := by
  refine ⟨rfl, rfl, rfl, rfl, rfl, rfl, rfl, rfl, fun off s => ⟨?bcc, ?bcs, ?bne, ?beq, ?bpl, ?bmi, ?bvc, ?bvs⟩⟩
  case bcc => exact exec_branch (i := .bcc off) (cond := fun f => !f.c) rfl ⟨_, rfl, rfl, rfl, rfl⟩ rfl
  case bcs => exact exec_branch (i := .bcs off) (cond := Flags.c) rfl ⟨_, rfl, rfl, rfl, rfl⟩ rfl
  case bne => exact exec_branch (i := .bne off) (cond := fun f => !f.z) rfl ⟨_, rfl, rfl, rfl, rfl⟩ rfl
  case beq => exact exec_branch (i := .beq off) (cond := Flags.z) rfl ⟨_, rfl, rfl, rfl, rfl⟩ rfl
  case bpl => exact exec_branch (i := .bpl off) (cond := fun f => !f.n) rfl ⟨_, rfl, rfl, rfl, rfl⟩ rfl
  case bmi => exact exec_branch (i := .bmi off) (cond := Flags.n) rfl ⟨_, rfl, rfl, rfl, rfl⟩ rfl
  case bvc => exact exec_branch (i := .bvc off) (cond := fun f => !f.v) rfl ⟨_, rfl, rfl, rfl, rfl⟩ rfl
  case bvs => exact exec_branch (i := .bvs off) (cond := Flags.v) rfl ⟨_, rfl, rfl, rfl, rfl⟩ rfl

end Sys2Proof.Machine
end

section
/-! PROOFS. Jumps and subroutines: JMP over the effective address, JSR and RTS over the word push and the word pull (R165 to
R168). -/

namespace Sys2Proof.Machine

/-- The address of `Read16Bug`'s high byte, made from its number (R54). -/
theorem ofNat_bugNext (addr : Addr) : BitVec.ofNat 16 (addr.toNat / 256 * 256 + (addr.toNat + 1) % 256) = bugNext addr := by
  rw [← bugNext_toNat, BitVec.ofNat_toNat, BitVec.setWidth_eq]

/-- The effective address of the Indirect mode is the word of the pointer's two bytes, read after the operand bytes (R97). -/
theorem effectiveAddr_ind (w : Addr) (s : State) :
    let t := s.access (operandByteReads (.ind w) s)
    effectiveAddr (.ind w) s = word ((t.afterRead w).byteAt (bugNext w)) (t.byteAt w) := rfl

/-- The accesses of the Indirect mode: the operand bytes, then the pointer's two bytes (R97, R281). -/
theorem access_resolverAccesses_ind (w : Addr) (s : State) :
    let t := s.access (operandByteReads (.ind w) s)
    s.access (resolverAccesses (.ind w) s) = (t.afterRead w).afterRead (bugNext w) := by
  intro t
  rw [resolverAccesses, ← State.access_access]
  exact (State.access_access t [readOf t w] [readOf (t.afterRead w) (bugNext w)]).symm

/-- `JMP` (R167): `PC` is set, over the state in which everything common to all instructions is done. -/
theorem exec_jmp {o : Operand} (s : State) (hadmits : Mnemonic.admits .jmp o.mode = true) :
    exec (.jmp o) s = .next ((after (.jmp o) s []).setPc (effectiveAddr o s)) :=
  exec_eq_after (i := .jmp o) (fun r t => t.setPc r.ea) ((Mnemonic.admits_iff .jmp o.mode).1 hadmits) rfl fun _ _ _ => rfl

/-- Settles O24: the encodings by evaluating the table; the indirect pointer's high byte is read at `bugNext` of the pointer. -/
theorem jmpSetsPc : Obligations.JmpSetsPc := by
  refine ⟨rfl, fun w s => ⟨exec_jmp (o := .abs w) s rfl, ?_⟩⟩
  rw [exec_jmp (o := .ind w) s rfl, after, List.append_nil, Instr.operand, access_resolverAccesses_ind, effectiveAddr_ind,
    ofNat_bugNext]
  rfl

/-- Accesses on top of an instruction's own are further accesses of it (R281). -/
theorem after_access (i : Instr) (s : State) (l : List Access) : (after i s []).access l = after i s l := by
  simp [after, State.access, Contract.replay_append]

/-- What `RTS` does beside its own effect: the implied operand is not read (R87). -/
theorem after_rts (s : State) : after .rts s [] = { s with pc := s.pc + 1, cycles := s.cycles + 6 } :=
  congrArg (fun t : State => { t with pc := s.pc + 1, cycles := s.cycles + 6 }) (State.access_nil s)

/-- `RTS` (R166): the word is pulled, over the state in which everything common to all instructions is done. -/
theorem exec_rts (s : State) :
    exec .rts s = .next ((after .rts s []).pull16.2.setPc ((after .rts s []).pull16.1 + 1)) :=
  exec_eq_after (i := .rts) (fun _ t => t.pull16.2.setPc (t.pull16.1 + 1)) ⟨_, rfl⟩ rfl fun _ _ _ => rfl

/-- `SP` after two pulls (R60). -/
theorem byte_add_one_add_one (p : Byte) : p + 1 + 1 = p + 2 := by
  bv_omega

/-- Settles O25: the encodings by evaluating the table; JSR is a word push and RTS a word pull. -/
theorem jsrPushesAndRtsPulls : Obligations.JsrPushesAndRtsPulls := by
  refine ⟨rfl, rfl, fun target s => ⟨?jsr, ?rts⟩⟩
  case jsr =>
    have hret : s.pc + 3 - 1 = s.pc + 2 := by bv_omega
    rw [exec_jsr, hret, State.push16_eq, byte_sub_one_sub_one, after_access]
    rfl
  case rts =>
    have hword (hi lo : Byte) : word hi lo + 1 = BitVec.ofNat 16 (hi.toNat * 256 + lo.toNat + 1) :=
      (BitVec.ofNat_add _ 1).symm
    rw [exec_rts, State.pull16_eq, byte_add_one_add_one, hword, after_rts]
    rfl

/-- RTS takes back a pushed word: `PC` is the word plus 1, and `SP`, A, X, Y and the flags are those before the push, wherever the
RTS stands (R58, R60, R166). -/
theorem exec_rts_push16 {t : State} (ht : t.canonical) (hr : t.stackIsRam) (w target : Addr) :
    ∃ u, exec .rts ((t.push16 w).setPc target) = .next u ∧
      u.pc = w + 1 ∧ u.sp = t.sp ∧ u.a = t.a ∧ u.x = t.x ∧ u.y = t.y ∧ u.flags = t.flags := by
  have hpc : (t.push16 w).pull16.1 + 1 = w + 1 := congrArg (· + 1) (State.pull16_push16 ht hr w)
  have hsp : t.sp - 1 - 1 + 1 + 1 = t.sp := by rw [BitVec.sub_add_cancel, BitVec.sub_add_cancel]
  exact ⟨_, exec_rts _, hpc, hsp, rfl, rfl, rfl, rfl⟩

/-- Settles O26: the word RTS takes back is the one JSR pushed, the address of the JSR's last byte. -/
theorem rtsUndoesJsr : Obligations.RtsUndoesJsr := by
  intro target s hs hr
  have hpc : s.pc + 3 - 1 + 1 = s.pc + 3 := BitVec.sub_add_cancel (s.pc + 3) 1
  obtain ⟨u, hrts, hu, hsame⟩ :=
    exec_rts_push16 (t := after (.jsr target) s []) (hs.access _) (hr.access _) (s.pc + 3 - 1) target
  exact ⟨_, u, exec_jsr target s, hrts, hu.trans hpc, hsame⟩

end Sys2Proof.Machine
end

section
/-! PROOFS. Stack instructions: PHP and PHA are one push, PLP and PLA one pull, and PLP takes back what PHP pushed (R175 to
R179). -/

namespace Sys2Proof.Machine

/-- `PLP` (R176): the pulled byte is unpacked, over the state in which everything common to all instructions is done. -/
theorem exec_plp (s : State) :
    exec .plp s = .next ((after .plp s []).pull.2.setFlags (Flags.unpack (after .plp s []).pull.1)) :=
  exec_eq_after (i := .plp) (fun _ t => t.pull.2.setFlags (Flags.unpack t.pull.1)) ⟨_, rfl⟩ rfl fun _ _ _ => rfl

/-- `PLA` (R178), likewise: the pulled byte goes to A, and Z and N describe it. -/
theorem exec_pla (s : State) :
    exec .pla s = .next (((after .pla s []).pull.2.setA (after .pla s []).pull.1).setZN (after .pla s []).pull.1) :=
  exec_eq_after (i := .pla) (fun _ t => (t.pull.2.setA t.pull.1).setZN t.pull.1) ⟨_, rfl⟩ rfl fun _ _ _ => rfl

/-- Settles O27: the encodings by evaluating the table; PHP and PHA are one push, of the software-pushed flags and of A. -/
theorem pushesWriteOneStackByte : Obligations.PushesWriteOneStackByte := by
  refine ⟨rfl, rfl, fun s => ⟨?php, ?pha⟩⟩
  case php =>
    rw [exec_php, State.push_eq, after_access, Flags.softwarePushed_eq]
    rfl
  case pha =>
    rw [exec_pha, State.push_eq, after_access]
    rfl

/-- Settles O28: the encodings by evaluating the table; PLP and PLA are one pull, whose byte goes to the flags and to A. -/
theorem pullsReadOneStackByte : Obligations.PullsReadOneStackByte := by
  refine ⟨rfl, rfl, fun s => ⟨?plp, ?pla⟩⟩
  case plp =>
    rw [exec_plp, State.pull_eq, State.afterRead, after_access]
    rfl
  case pla =>
    rw [exec_pla, State.pull_eq, State.afterRead, after_access, State.setZN, Flags.setZN_eq]
    rfl

/-- `PLP` takes back pushed flags: its byte is the pushed one (R61), and `SP` is as before the push. -/
theorem exec_plp_push {t : State} (ht : t.canonical) (hr : t.stackIsRam) (v : Byte) :
    ∃ u, exec .plp (t.push v) = .next u ∧ u.flags = Flags.unpack v ∧ u.sp = t.sp :=
  ⟨_, exec_plp _, congrArg Flags.unpack (State.pull_push ht hr v), BitVec.sub_add_cancel t.sp 1⟩

/-- Settles O29: PLP unpacks the byte PHP pushed, the flags packed with B and U set. -/
theorem plpAfterPhpSetsOnlyBreak : Obligations.PlpAfterPhpSetsOnlyBreak := by
  intro s hs hr
  obtain ⟨u, hplp, hflags, hsp⟩ := exec_plp_push (t := after .php s []) (hs.access _) (hr.access _) s.flags.softwarePushed
  rw [Flags.softwarePushed_eq, Flags.unpack_pack] at hflags
  exact ⟨_, u, exec_php s, hplp, hflags, hsp⟩

end Sys2Proof.Machine
end

section
/-! PROOFS. Loads, stores and register transfers: one lemma for each shape that several instructions share, and TXS (R185 to
R196). -/

namespace Sys2Proof.Machine

/-! ### Loads -/

/-- An instruction with the executor of the loads puts the operand byte, read once, into its register, writes the Z and N of that
byte, and nothing else (R185 to R187). -/
theorem exec_load {i : Instr} {s : State} (put : State → Byte → State) (hd : ∃ d, i.descriptor? = some d)
    (he : exec i s = runForm i.descriptor? i.operand (loadExecutor put) s)
    (hcycles : ∀ t v k, put (State.addCycles t k) v = (put t v).addCycles k)
    (hflags : ∀ t v, (put t v).flags = t.flags) :
    let v := operandValue i.operand s
    exec i s = .next { put (after i s (operandAccesses i.operand s)) v with flags := withZN s.flags v } := by
  rw [exec_eq_read (fun m t => (put t m).setZN m) hd he (fun v t k => by rw [hcycles]; rfl), State.setZN, Flags.setZN_eq, hflags]
  rfl

/-- Settles O30: the encodings by evaluating the table; each of the three loads its register. -/
theorem loadsReadOneByte : Obligations.LoadsReadOneByte := by
  refine ⟨rfl, rfl, rfl, fun o s => ⟨fun hadmits => ?lda, fun hadmits => ?ldx, fun hadmits => ?ldy⟩⟩
  case lda =>
    exact exec_load (i := .lda o) State.setA ((Mnemonic.admits_iff .lda _).1 hadmits) rfl (fun _ _ _ => rfl) State.setA_flags
  case ldx =>
    exact exec_load (i := .ldx o) State.setX ((Mnemonic.admits_iff .ldx _).1 hadmits) rfl (fun _ _ _ => rfl) State.setX_flags
  case ldy =>
    exact exec_load (i := .ldy o) State.setY ((Mnemonic.admits_iff .ldy _).1 hadmits) rfl (fun _ _ _ => rfl) State.setY_flags

/-! ### Stores -/

/-- An instruction with the executor of the stores makes one access beyond the resolver's, the write of its register at the
effective address, and changes no register and no flag (R188 to R190). -/
theorem exec_store {i : Instr} {s : State} (reg : State → Byte) (hd : ∃ d, i.descriptor? = some d)
    (he : exec i s = runForm i.descriptor? i.operand (storeExecutor reg) s)
    (hcycles : ∀ t k, reg (State.addCycles t k) = reg t) (hafter : reg (after i s []) = reg s) :
    exec i s = .next (after i s [.wr (effectiveAddr i.operand s) (reg s)]) := by
  rw [exec_eq_after _ hd he (fun r t k => by rw [storeExecutor, hcycles]; rfl), storeExecutor, hafter, State.memWrite_eq,
    after_access]
  rfl

/-- Settles O31: the encodings by evaluating the table; each of the three stores its register. -/
theorem storesWriteOneByte : Obligations.StoresWriteOneByte := by
  refine ⟨rfl, rfl, rfl, fun o s => ⟨fun hadmits => ?sta, fun hadmits => ?stx, fun hadmits => ?sty⟩⟩
  case sta => exact exec_store (i := .sta o) State.a ((Mnemonic.admits_iff .sta _).1 hadmits) rfl (fun _ _ => rfl) rfl
  case stx => exact exec_store (i := .stx o) State.x ((Mnemonic.admits_iff .stx _).1 hadmits) rfl (fun _ _ => rfl) rfl
  case sty => exact exec_store (i := .sty o) State.y ((Mnemonic.admits_iff .sty _).1 hadmits) rfl (fun _ _ => rfl) rfl

/-! ### Transfers -/

/-- What an implied instruction of length 1 and base cost 2 does beside its own effect: `PC` and `Cycles` move on, and there is no
operand to read (R87, R277, R279). -/
theorem after_implied {i : Instr} (s : State) (ho : i.operand = .imp)
    (hd : ∃ d, i.descriptor? = some d ∧ d.length = 1 ∧ d.cycles = 2 ∧ d.pageCycles = 0) :
    after i s [] = { s with pc := s.pc + 1, cycles := s.cycles + 2 } := by
  obtain ⟨d, hrow, hlength, hcycles, hpage⟩ := hd
  have hsize : i.size = 1 := by simp only [Instr.size, hrow, hlength]
  have hcost : i.cost s = 2 := by simp [Instr.cost, hrow, hcycles, pageCost, hpage]
  have haccesses : s.access (resolverAccesses .imp s ++ []) = s := State.access_nil s
  rw [after, ho, hsize, hcost, haccesses]
  rfl

/-- Such an instruction, with the executor of the transfers that set flags, copies one register to another, writes the Z and N of
the byte copied, and nothing else (R191 to R195). -/
theorem exec_transfer {i : Instr} {s : State} (put : State → Byte → State) (reg : State → Byte) (ho : i.operand = .imp)
    (hd : ∃ d, i.descriptor? = some d ∧ d.length = 1 ∧ d.cycles = 2 ∧ d.pageCycles = 0)
    (he : exec i s = runForm i.descriptor? i.operand (transferExecutor put reg) s)
    (hcycles : ∀ r t k, transferExecutor put reg r (State.addCycles t k) = (transferExecutor put reg r t).addCycles k)
    (hflags : ∀ t v, (put t v).flags = t.flags) (hreg : reg { s with pc := s.pc + 1, cycles := s.cycles + 2 } = reg s) :
    exec i s = .next { put { s with pc := s.pc + 1, cycles := s.cycles + 2 } (reg s) with
      flags := withZN s.flags (reg s) } := by
  have hrow : ∃ d, i.descriptor? = some d := hd.imp fun _ h => h.1
  rw [exec_eq_after _ hrow he hcycles, after_implied s ho hd, transferExecutor, hreg, State.setZN, Flags.setZN_eq, hflags]
  rfl

/-- `TXS` (R196): X goes to `SP` with no flag written, over the state in which everything common to all instructions is done. -/
theorem exec_txs (s : State) : exec .txs s = .next ((after .txs s []).setSp s.x) :=
  exec_eq_after (i := .txs) (fun _ t => t.setSp t.x) ⟨_, rfl⟩ rfl fun _ _ _ => rfl

/-- Settles O32: the encodings by evaluating the table; five of the six are the shared executor with its two registers, and TXS
writes `SP` alone. -/
theorem transfersCopyARegister : Obligations.TransfersCopyARegister := by
  refine ⟨rfl, rfl, rfl, rfl, rfl, rfl, fun s => ⟨?tax, ?tay, ?txa, ?tya, ?tsx, ?txs⟩⟩
  case tax =>
    exact exec_transfer (i := .tax) State.setX State.a rfl ⟨_, rfl, rfl, rfl, rfl⟩ rfl (fun _ _ _ => rfl) State.setX_flags rfl
  case tay =>
    exact exec_transfer (i := .tay) State.setY State.a rfl ⟨_, rfl, rfl, rfl, rfl⟩ rfl (fun _ _ _ => rfl) State.setY_flags rfl
  case txa =>
    exact exec_transfer (i := .txa) State.setA State.x rfl ⟨_, rfl, rfl, rfl, rfl⟩ rfl (fun _ _ _ => rfl) State.setA_flags rfl
  case tya =>
    exact exec_transfer (i := .tya) State.setA State.y rfl ⟨_, rfl, rfl, rfl, rfl⟩ rfl (fun _ _ _ => rfl) State.setA_flags rfl
  case tsx =>
    exact exec_transfer (i := .tsx) State.setX State.sp rfl ⟨_, rfl, rfl, rfl, rfl⟩ rfl (fun _ _ _ => rfl) State.setX_flags rfl
  case txs =>
    rw [exec_txs, after_implied s rfl ⟨_, rfl, rfl, rfl, rfl⟩]
    rfl

end Sys2Proof.Machine
end

section
/-! PROOFS. Increments and decrements: the two steps in numbers, and one lemma for each of the two shapes, of INC and DEC over
memory and of INX, INY, DEX, DEY over a register (R205 to R210). -/

namespace Sys2Proof.Machine

/-! ### The steps in numbers -/

/-- A byte steps up modulo 256 (R205). -/
theorem byte_add_one_eq (v : Byte) : v + 1 = BitVec.ofNat 8 (v.toNat + 1) := by
  bv_omega

/-- A byte steps down modulo 256: subtracting 1 adds 255 (R206). -/
theorem byte_sub_one_eq (v : Byte) : v - 1 = BitVec.ofNat 8 (v.toNat + 255) := by
  bv_omega

/-! ### Memory -/

/-- The operand of a mode other than Accumulator and Immediate is the byte at the effective address after the resolver's reads
(R89). -/
theorem operandValue_eq_byteAt {o : Operand} (s : State) (hacc : o.mode ≠ .acc) (himm : o.mode ≠ .imm) :
    operandValue o s = (s.access (resolverAccesses o s)).byteAt (effectiveAddr o s) := by
  cases o with
  | acc => exact absurd rfl hacc
  | imm value => exact absurd rfl himm
  | _ => rfl

/-- The executor of INC and DEC over an operand in memory, run in the state in which everything common to all instructions is done:
the operand byte is read once and the stepped byte written back to the same address (R205, R206). -/
theorem stepMemoryExecutor_after {i : Instr} {s : State} (f : Byte → Byte) (hacc : i.operand.mode ≠ .acc)
    (himm : i.operand.mode ≠ .imm) :
    let ea := effectiveAddr i.operand s
    let v := operandValue i.operand s
    stepMemoryExecutor f (resolve i.operand s).1 (after i s []) = (after i s [.rd ea v, .wr ea (f v)]).setZN (f v) := by
  intro ea v
  have hmem : (after i s []).mem = (s.access (resolverAccesses i.operand s)).mem := by rw [after, List.append_nil]
  have hread : (after i s []).byteAt ea = v :=
    (State.byteAt_congr hmem ea).trans (operandValue_eq_byteAt s hacc himm).symm
  calc stepMemoryExecutor f (resolve i.operand s).1 (after i s [])
    _ = (((after i s []).access [.rd ea v]).access [.wr ea (f v)]).setZN (f v) := by
      rw [← hread]
      rfl
    _ = (after i s [.rd ea v, .wr ea (f v)]).setZN (f v) := by
      rw [State.access_access, after_access]
      rfl

/-- An instruction with that executor makes these two accesses, writes the Z and N of the byte written back, and nothing else (R205,
R206). -/
theorem exec_stepMemory {i : Instr} {s : State} {f : Byte → Byte} {stepped : Byte} (hd : ∃ d, i.descriptor? = some d)
    (he : exec i s = runForm i.descriptor? i.operand (stepMemoryExecutor f) s)
    (hacc : i.operand.mode ≠ .acc) (himm : i.operand.mode ≠ .imm) (hf : f (operandValue i.operand s) = stepped) :
    let ea := effectiveAddr i.operand s
    exec i s = .next { after i s [.rd ea (operandValue i.operand s), .wr ea stepped] with flags := withZN s.flags stepped } := by
  intro ea
  rw [exec_eq_after _ hd he fun _ _ _ => rfl, stepMemoryExecutor_after f hacc himm, hf, State.setZN, Flags.setZN_eq]
  rfl

/-- Settles O33: the encodings by evaluating the table; INC and DEC are the shared executor with the two steps, and neither has the
Accumulator or the Immediate mode. -/
theorem incAndDecStepMemory : Obligations.IncAndDecStepMemory := by
  refine ⟨rfl, rfl, fun o s => ⟨fun hadmits => ?inc, fun hadmits => ?dec⟩⟩
  case inc =>
    have hacc : o.mode ≠ .acc := fun h => absurd (h ▸ hadmits) (by decide)
    have himm : o.mode ≠ .imm := fun h => absurd (h ▸ hadmits) (by decide)
    exact exec_stepMemory (i := .inc o) ((Mnemonic.admits_iff .inc _).1 hadmits) rfl hacc himm (byte_add_one_eq _)
  case dec =>
    have hacc : o.mode ≠ .acc := fun h => absurd (h ▸ hadmits) (by decide)
    have himm : o.mode ≠ .imm := fun h => absurd (h ▸ hadmits) (by decide)
    exact exec_stepMemory (i := .dec o) ((Mnemonic.admits_iff .dec _).1 hadmits) rfl hacc himm (byte_sub_one_eq _)

/-! ### Registers -/

/-- The executor of the register steps is that of the transfers, from the stepped register to itself (R207 to R210). -/
theorem stepRegisterExecutor_eq (put : State → Byte → State) (reg : State → Byte) (f : Byte → Byte) :
    stepRegisterExecutor put reg f = transferExecutor put (fun t => f (reg t)) := rfl

/-- An implied instruction of length 1 and base cost 2 with that executor steps its register, writes the Z and N of the stepped byte,
and nothing else (R207 to R210). -/
theorem exec_stepRegister {i : Instr} {s : State} {f : Byte → Byte} {stepped : Byte} (put : State → Byte → State)
    (reg : State → Byte) (ho : i.operand = .imp)
    (hd : ∃ d, i.descriptor? = some d ∧ d.length = 1 ∧ d.cycles = 2 ∧ d.pageCycles = 0)
    (he : exec i s = runForm i.descriptor? i.operand (stepRegisterExecutor put reg f) s)
    (hcycles : ∀ r t k, stepRegisterExecutor put reg f r (State.addCycles t k) = (stepRegisterExecutor put reg f r t).addCycles k)
    (hflags : ∀ t v, (put t v).flags = t.flags) (hreg : reg { s with pc := s.pc + 1, cycles := s.cycles + 2 } = reg s)
    (hf : f (reg s) = stepped) :
    exec i s = .next { put { s with pc := s.pc + 1, cycles := s.cycles + 2 } stepped with flags := withZN s.flags stepped } := by
  rw [stepRegisterExecutor_eq] at he hcycles
  rw [exec_transfer put _ ho hd he hcycles hflags (congrArg f hreg), hf]

/-- Settles O34: the encodings by evaluating the table; each of the four is the shared executor with its register and its step. -/
theorem registerStepsWrap : Obligations.RegisterStepsWrap := by
  refine ⟨rfl, rfl, rfl, rfl, fun s => ⟨?inx, ?iny, ?dex, ?dey⟩⟩
  case inx =>
    exact exec_stepRegister (i := .inx) State.setX State.x rfl ⟨_, rfl, rfl, rfl, rfl⟩ rfl (fun _ _ _ => rfl) State.setX_flags rfl
      (byte_add_one_eq _)
  case iny =>
    exact exec_stepRegister (i := .iny) State.setY State.y rfl ⟨_, rfl, rfl, rfl, rfl⟩ rfl (fun _ _ _ => rfl) State.setY_flags rfl
      (byte_add_one_eq _)
  case dex =>
    exact exec_stepRegister (i := .dex) State.setX State.x rfl ⟨_, rfl, rfl, rfl, rfl⟩ rfl (fun _ _ _ => rfl) State.setX_flags rfl
      (byte_sub_one_eq _)
  case dey =>
    exact exec_stepRegister (i := .dey) State.setY State.y rfl ⟨_, rfl, rfl, rfl, rfl⟩ rfl (fun _ _ _ => rfl) State.setY_flags rfl
      (byte_sub_one_eq _)

end Sys2Proof.Machine
end

section
/-! PROOFS. Flag operations and NOP: the implied instructions of cost 2 that change the flags alone (R215 to R221, R226). -/

namespace Sys2Proof.Machine

/-- An implied instruction of length 1 and base cost 2 with the executor of the flag operations changes the flags as that executor
says, and nothing else (R215 to R221). -/
theorem exec_flagOp {i : Instr} {s : State} (f : Flags → Flags) (ho : i.operand = .imp)
    (hd : ∃ d, i.descriptor? = some d ∧ d.length = 1 ∧ d.cycles = 2 ∧ d.pageCycles = 0)
    (he : exec i s = runForm i.descriptor? i.operand (flagExecutor f) s) :
    exec i s = .next { s with pc := s.pc + 1, cycles := s.cycles + 2, flags := f s.flags } := by
  have hrow : ∃ d, i.descriptor? = some d := hd.imp fun _ h => h.1
  rw [exec_eq_after _ hrow he fun _ _ _ => rfl, after_implied s ho hd]
  rfl

/-- Settles O35: the encodings by evaluating the table; each flag instruction is the shared executor with its one flag, and NOP is
that executor with the flags as they are. -/
theorem flagInstructionsWriteOneFlagAndNopNone : Obligations.FlagInstructionsWriteOneFlagAndNopNone := by
  refine ⟨rfl, rfl, rfl, rfl, rfl, rfl, rfl, rfl, fun s => ⟨?clc, ?sec, ?cli, ?sei, ?cld, ?sed, ?clv, ?nop⟩⟩
  case clc => exact exec_flagOp (i := .clc) (fun f => { f with c := false }) rfl ⟨_, rfl, rfl, rfl, rfl⟩ rfl
  case sec => exact exec_flagOp (i := .sec) (fun f => { f with c := true }) rfl ⟨_, rfl, rfl, rfl, rfl⟩ rfl
  case cli => exact exec_flagOp (i := .cli) (fun f => { f with i := false }) rfl ⟨_, rfl, rfl, rfl, rfl⟩ rfl
  case sei => exact exec_flagOp (i := .sei) (fun f => { f with i := true }) rfl ⟨_, rfl, rfl, rfl, rfl⟩ rfl
  case cld => exact exec_flagOp (i := .cld) (fun f => { f with d := false }) rfl ⟨_, rfl, rfl, rfl, rfl⟩ rfl
  case sed => exact exec_flagOp (i := .sed) (fun f => { f with d := true }) rfl ⟨_, rfl, rfl, rfl, rfl⟩ rfl
  case clv => exact exec_flagOp (i := .clv) (fun f => { f with v := false }) rfl ⟨_, rfl, rfl, rfl, rfl⟩ rfl
  case nop => exact exec_flagOp (i := .nop) id rfl ⟨_, rfl, rfl, rfl, rfl⟩ rfl

end Sys2Proof.Machine
end

section
/-! PROOFS. Handlers: BRK and the interrupt service enter one, RTI leaves it, and on a stack that is RAM the leaving takes back what
the entering pushed (R225, R227, R248, R252). -/

namespace Sys2Proof.Machine

/-! ### Entering and leaving -/

/-- `SP` after three pushes. -/
theorem byte_sub_two_sub_one (p : Byte) : p - 2 - 1 = p - 3 := by
  bv_omega

/-- `SP` after three pulls. -/
theorem byte_add_two_add_one (p : Byte) : p + 2 + 1 = p + 3 := by
  bv_omega

/-- What `RTI` does beside its own effect: the implied operand is not read (R87). -/
theorem after_rti (s : State) : after .rti s [] = { s with pc := s.pc + 1, cycles := s.cycles + 6 } :=
  congrArg (fun t : State => { t with pc := s.pc + 1, cycles := s.cycles + 6 }) (State.access_nil s)

/-- What `BRK` does beside its own effect: `PC` goes past the padding byte, which is not read (R227). -/
theorem after_brk (pad : Byte) (s : State) : after (.brk pad) s [] = { s with pc := s.pc + 2, cycles := s.cycles + 7 } :=
  congrArg (fun t : State => { t with pc := s.pc + 2, cycles := s.cycles + 7 }) (State.access_nil s)

/-- `RTI` (R225): the handler is left, over the state in which everything common to all instructions is done. -/
theorem exec_rti (s : State) : exec .rti s = .next (after .rti s []).leaveHandler :=
  exec_eq_after (i := .rti) (fun _ t => t.leaveHandler) ⟨_, rfl⟩ rfl fun _ _ _ => rfl

/-- Settles O36: the encoding by evaluating the table; RTI is one pull for the flags and two for `PC`. -/
theorem rtiPullsFlagsThenPc : Obligations.RtiPullsFlagsThenPc := by
  refine ⟨rfl, fun s => ?_⟩
  rw [exec_rti, State.leaveHandler_eq, byte_add_one_add_one, byte_add_two_add_one, after_rti]
  rfl

/-- Settles O37: the encoding by evaluating the table; BRK enters the handler at 0xFFFE from the address past its padding byte. -/
theorem brkEntersTheIrqHandler : Obligations.BrkEntersTheIrqHandler := by
  refine ⟨rfl, fun pad s => ?_⟩
  rw [exec_brk, State.enterHandler_eq, byte_sub_one_sub_one, byte_sub_two_sub_one, after_brk, Flags.softwarePushed_eq]
  rfl

/-- Settles O46: the service enters the handler, clears the request and adds 7 cycles. -/
theorem serviceSequence : Obligations.ServiceSequence := by
  intro s vector
  rw [State.service_eq, State.enterHandler_eq, byte_sub_one_sub_one, byte_sub_two_sub_one, Flags.hardwarePushed_eq]

/-! ### The way back -/

/-- A read, whatever it does in a device, leaves the bytes of a stack page that is RAM (R51). -/
theorem State.byteAt_stack_afterRead {s : State} (hr : s.stackIsRam) (addr : Addr) (q : Byte) :
    (s.afterRead addr).byteAt (stackAddr q) = s.byteAt (stackAddr q) := by
  obtain ⟨cell, -, hplace⟩ := hr
  have hq : s.mem.cellAt (stackAddr q) = some (cell q) := Contract.cellAt_eq_some.2 ⟨true, hplace q⟩
  have hq' : (s.afterRead addr).mem.cellAt (stackAddr q) = some (cell q) :=
    (Contract.cellAt_congr (Contract.read8_windows s.mem addr) _).trans hq
  rw [State.byteAt_of_cellAt hq', State.byteAt_of_cellAt hq, State.afterRead_mem, Contract.read8_cells]

/-- Whether the stack page is RAM is the contract's matter alone. -/
theorem State.stackIsRam.congr {s t : State} (h : s.stackIsRam) (hmem : t.mem = s.mem) : t.stackIsRam := by
  rw [State.stackIsRam, hmem]
  exact h

/-- A read leaves the stack page RAM. -/
theorem State.stackIsRam.afterRead {s : State} (h : s.stackIsRam) (addr : Addr) : (s.afterRead addr).stackIsRam :=
  h.access [readOf s addr]

/-- Entering a handler leaves the stack page RAM. -/
theorem State.stackIsRam.enterHandler {s : State} (h : s.stackIsRam) (vector : Addr) (p : Byte) :
    (s.enterHandler vector p).stackIsRam :=
  ((((h.push (hiByte s.pc)).push (loByte s.pc)).push p).afterRead vector).afterRead (vector + 1)

/-- Entering a handler leaves on a stack that is RAM the three bytes pushed: P lowest, then `PC` with its low byte first (R227,
R248). -/
theorem State.byteAt_stack_enterHandler {s : State} (hs : s.canonical) (hr : s.stackIsRam) (vector : Addr) (p q : Byte) :
    (s.enterHandler vector p).byteAt (stackAddr q) =
      if q = s.sp - 2 then p else if q = s.sp - 1 then loByte s.pc else if q = s.sp then hiByte s.pc
      else s.byteAt (stackAddr q) := by
  have hsHigh := hs.push (hiByte s.pc)
  have hrHigh := hr.push (hiByte s.pc)
  have hrAll := (hrHigh.push (loByte s.pc)).push p
  calc (s.enterHandler vector p).byteAt (stackAddr q)
    _ = (((((s.push (hiByte s.pc)).push (loByte s.pc)).push p).afterRead vector).afterRead (vector + 1)).byteAt
        (stackAddr q) := rfl
    _ = (((s.push (hiByte s.pc)).push (loByte s.pc)).push p).byteAt (stackAddr q) := by
      rw [State.byteAt_stack_afterRead (hrAll.afterRead vector), State.byteAt_stack_afterRead hrAll]
    _ = _ := by
      rw [State.byteAt_push (hsHigh.push _) (hrHigh.push _), State.byteAt_push hsHigh hrHigh, State.byteAt_push hs hr,
        ← byte_sub_one_sub_one]
      rfl

/-- RTI on a stack that is RAM takes the flags and `PC` from the three bytes above `SP`, and leaves A, X, Y (R225). -/
theorem exec_rti_of_ram {t : State} (hr : t.stackIsRam) :
    ∃ u, exec .rti t = .next u ∧
      u.pc = word (t.byteAt (stackAddr (t.sp + 3))) (t.byteAt (stackAddr (t.sp + 2))) ∧ u.sp = t.sp + 3 ∧
      u.flags = Flags.unpack (t.byteAt (stackAddr (t.sp + 1))) ∧ u.a = t.a ∧ u.x = t.x ∧ u.y = t.y := by
  have hmid := State.byteAt_stack_afterRead hr (stackAddr (t.sp + 1)) (t.sp + 2)
  have hhigh := (State.byteAt_stack_afterRead (hr.afterRead (stackAddr (t.sp + 1))) (stackAddr (t.sp + 2)) (t.sp + 3)).trans
    (State.byteAt_stack_afterRead hr (stackAddr (t.sp + 1)) (t.sp + 3))
  obtain ⟨-, hrti⟩ := rtiPullsFlagsThenPc
  refine ⟨_, hrti t, ?_, rfl, rfl, rfl, rfl, rfl⟩
  rw [← hmid, ← hhigh]
  rfl

/-- RTI takes back what the entering of a handler pushed, from any state with that memory and that `SP`: `PC` and `SP` are those
before the handler was entered, the flags those of the pushed byte (R252). -/
theorem exec_rti_enterHandler {s t : State} (hs : s.canonical) (hr : s.stackIsRam) {vector : Addr} {p : Byte}
    (hmem : t.mem = (s.enterHandler vector p).mem) (hsp : t.sp = s.sp - 3) :
    ∃ u, exec .rti t = .next u ∧ u.pc = s.pc ∧ u.sp = s.sp ∧ u.flags = Flags.unpack p ∧ u.a = t.a ∧ u.x = t.x ∧ u.y = t.y := by
  have hbyte (q : Byte) := (State.byteAt_congr hmem (stackAddr q)).trans (State.byteAt_stack_enterHandler hs hr vector p q)
  obtain ⟨u, hrti, hpc, hsp', hflags, hsame⟩ := exec_rti_of_ram ((hr.enterHandler vector p).congr hmem)
  have hpAt : t.sp + 1 = s.sp - 2 := by bv_omega
  have hlowAt : t.sp + 2 = s.sp - 1 := by bv_omega
  have hhighAt : t.sp + 3 = s.sp := by bv_omega
  have hlow_ne_p : s.sp - 1 ≠ s.sp - 2 := by bv_omega
  have hhigh_ne_low : s.sp ≠ s.sp - 1 := by bv_omega
  have hhigh_ne_p : s.sp ≠ s.sp - 2 := by bv_omega
  refine ⟨u, hrti, ?_, hsp'.trans hhighAt, ?_, hsame⟩
  · rw [hpc, hlowAt, hhighAt, hbyte, hbyte, if_neg hhigh_ne_p, if_neg hhigh_ne_low, if_pos rfl, if_neg hlow_ne_p,
      if_pos rfl, word_hiByte_loByte]
  · rw [hflags, hpAt, hbyte, if_pos rfl]

/-- Settles O38: BRK enters the handler from the address past its padding byte, with the flags packed with B and U set. -/
theorem rtiReturnsFromBrk : Obligations.RtiReturnsFromBrk := by
  intro pad s hs hr
  obtain ⟨-, hsp, ha, hx, hy, -⟩ := State.enterHandler_registers (after (.brk pad) s []) irqVector s.flags.softwarePushed
  obtain ⟨u, hrti, hpc, husp, hflags, hua, hux, huy⟩ :=
    exec_rti_enterHandler (s := after (.brk pad) s []) (hs.access _) (hr.access _) rfl hsp
  rw [Flags.softwarePushed_eq, Flags.unpack_pack] at hflags
  exact ⟨_, u, exec_brk pad s, hrti, hpc, husp, hflags, hua.trans ha, hux.trans hx, huy.trans hy⟩

/-- Settles O47: the service enters the handler from the interrupted `PC`, with the flags packed with B clear and U set. -/
theorem rtiReturnsFromInterrupt : Obligations.RtiReturnsFromInterrupt := by
  intro s vector hs hr
  obtain ⟨-, hsp, ha, hx, hy, -⟩ := State.enterHandler_registers s vector s.flags.hardwarePushed
  obtain ⟨u, hrti, hpc, husp, hflags, hua, hux, huy⟩ :=
    exec_rti_enterHandler (t := s.service vector) hs hr rfl hsp
  rw [Flags.hardwarePushed_eq, Flags.unpack_pack] at hflags
  exact ⟨u, hrti, hpc, husp, hflags, hua.trans ha, hux.trans hx, huy.trans hy⟩

end Sys2Proof.Machine
end

section
/-! PROOFS. Every row of the table completes, the undocumented ones with their length and cost (R232, R240). -/

namespace Sys2Proof.Machine

/-- A page-crossing cost is 0 or 1 (R101, R105). -/
theorem descriptor_pageCycles_le : ∀ op : Byte, (descriptor op).pageCycles ≤ 1 := by
  decide +kernel

/-- The page-crossing cost in plain numbers: 1 if a page is crossed and the row declares a cost (R279). -/
theorem pageCost_descriptor (op : Byte) (crossed : Bool) :
    pageCost (descriptor op) crossed = if crossed = true ∧ (descriptor op).pageCycles = 1 then 1 else 0 := by
  rcases Nat.le_one_iff_eq_zero_or_eq_one.1 (descriptor_pageCycles_le op) with h | h <;> simp [pageCost, h]

/-- A well-formed undocumented opcode is its row, performed with the executor of its effect (R232). -/
theorem exec_illegal {op : Byte} {o : Operand} (s : State) (hwf : (Instr.illegal op o).wf = true) :
    exec (.illegal op o) s = .next (perform (descriptor op) o (illegalExecutor (Config.illegalEffect op s) s) s) := by
  obtain ⟨d, hd⟩ := Option.isSome_iff_exists.1 ((Instr.wf_iff (.illegal op o)).symm.trans hwf)
  obtain ⟨-, rfl⟩ := illegalDescriptor_eq_some.1 hd
  exact congrArg (fun row => runForm row o (illegalExecutor (Config.illegalEffect op s) s) s) hd

/-- Settles O39: the engine of R276 is around an executor that leaves `PC`, `Cycles` and the control fields. -/
theorem undocumentedOpcodesHaveLengthAndCost : Obligations.UndocumentedOpcodesHaveLengthAndCost := by
  intro op o s hwf
  refine ⟨_, exec_illegal s hwf, ?_⟩
  rw [perform_eq, ← pageCost_descriptor]
  exact ⟨rfl, rfl, rfl, rfl⟩

/-- Settles O5: a meaning performs the row that describes the instruction, and refuses if there is none. -/
theorem everyInstructionCompletes : Obligations.EveryInstructionCompletes := by
  intro i s
  rw [Instr.wf_iff]
  refine ⟨fun hsome => ?_, fun hnone => ?_⟩
  · obtain ⟨d, hd⟩ := Option.isSome_iff_exists.1 hsome
    obtain ⟨t, ht, -⟩ := exec_next_of_descriptor hd s
    exact ⟨t, ht⟩
  · obtain ⟨run, he, -⟩ := exec_runForm i s
    rw [he, Option.not_isSome_iff_eq_none.1 (Bool.eq_false_iff.1 hnone), runForm_none]

end Sys2Proof.Machine
end

section
/-! PROOFS. Which bytes of memory an instruction changes: none if its form stores nothing, else at most the one at its effective
address (R281 item 4). -/

namespace Sys2Proof.Machine

/-! ### Forms that store nothing -/

/-- A state with the contract of `s` stores nothing. -/
theorem storesOnly_of_mem {s t : State} (hmem : t.mem = s.mem) : storesOnly [] s t :=
  ⟨[], hmem, fun _ _ h => absurd h List.not_mem_nil⟩

/-- Two stretches that store nothing. -/
theorem storesOnly.trans {s t u : State} (h : storesOnly [] s t) (h' : storesOnly [] t u) : storesOnly [] s u := by
  obtain ⟨l, hmem, hl⟩ := h'
  exact h.access l hmem hl

/-- Reads alone change no cell. -/
theorem Contract.replay_cells {m : Contract} {l : List Access} (h : ∀ addr v, Access.wr addr v ∉ l) :
    (m.replay l).cells = m.cells := by
  induction l generalizing m with
  | nil => rfl
  | cons acc rest ih =>
    cases acc with
    | rd addr v =>
      rw [Contract.replay_rd, ih fun a w ha => h a w (.tail _ ha), Contract.read8_cells]
    | wr addr v => exact absurd (List.mem_cons_self) (h addr v)

/-- Where nothing is stored, no cell changes, and every byte read from a cell is as before, whatever the form of the cells. -/
theorem sameBytes_of_storesOnly_nil {s t : State} (h : storesOnly [] s t) :
    sameBytesExcept [] s t ∧ t.mem.cells = s.mem.cells := by
  obtain ⟨l, hmem, hl⟩ := h
  have hwindows : t.mem.windows = s.mem.windows := by rw [hmem, Contract.replay_windows]
  have hcells : t.mem.cells = s.mem.cells := by
    rw [hmem, Contract.replay_cells fun addr v hw => List.not_mem_nil (hl addr v hw)]
  refine ⟨⟨hwindows, fun addr c hc _ => ?_⟩, hcells⟩
  rw [State.byteAt_of_cellAt hc, State.byteAt_of_cellAt ((Contract.cellAt_congr hwindows addr).trans hc), hcells]

/-- Reading the operand stores nothing. -/
theorem storesOnly_readOperand (t : State) (r : Resolved) : storesOnly [] t (t.readOperand r).2 := by
  obtain ⟨o, ea, crossed⟩ := r
  cases o with
  | acc => exact storesOnly_of_mem rfl
  | imm value => exact (storesOnly_of_mem rfl).access [.rd ea value] rfl (by simp)
  | _ => exact (storesOnly_of_mem rfl).afterRead ea

/-- Nor does a pull. -/
theorem storesOnly_pull (t : State) : storesOnly [] t t.pull.2 :=
  (storesOnly_of_mem (s := t) rfl).afterRead (stackAddr (t.sp + 1))

/-- Nor does a word pull. -/
theorem storesOnly_pull16 (t : State) : storesOnly [] t t.pull16.2 :=
  (storesOnly_pull t).trans (storesOnly_pull t.pull.2)

/-- Nor does leaving a handler. -/
theorem storesOnly_leaveHandler (t : State) : storesOnly [] t t.leaveHandler :=
  (storesOnly_pull t).trans (storesOnly_pull16 (t.pull.2.setFlags _))

/-- Nor does a branch. -/
theorem storesOnly_branch (cond : Flags → Bool) (r : Resolved) (t : State) : storesOnly [] t (branchExecutor cond r t) :=
  storesOnly_of_mem (by rw [branchExecutor_eq])

/-- A shift or rotate whose result goes to the accumulator stores nothing (R130). -/
theorem storesOnly_shift (outBit : Nat) (result : Byte → Bool → Byte) {r : Resolved} (hr : r.operand = .acc) (t : State) :
    storesOnly [] t (shiftExecutor outBit result r t) := by
  have hread := storesOnly_readOperand t r
  rw [shiftExecutor, writeOperand_eq, if_pos hr]
  exact hread

/-- An instruction whose form stores nothing is the engine of R276 around an executor that stores nothing. -/
theorem exec_storesNothing {i : Instr} (s : State)
    (hi : i.mnemonic ∉ [.sta, .stx, .sty, .inc, .dec, .pha, .php, .jsr, .brk, .illegal])
    (hacc : i.mnemonic ∈ [.asl, .lsr, .rol, .ror] → i.operand = .acc) :
    ∃ run, exec i s = runForm i.descriptor? i.operand run s ∧ ∀ t, storesOnly [] t (run (resolve i.operand s).1 t) := by
  cases i with
  | sta | stx | sty | inc | dec | pha | php | jsr | brk | illegal => simp [Instr.mnemonic] at hi
  | asl o | lsr o | rol o | ror o =>
    have ho : (resolve o s).1.operand = .acc := (resolve_operand o s).trans (hacc (by simp [Instr.mnemonic]))
    exact ⟨_, rfl, storesOnly_shift _ _ ho⟩
  | adc o | sbc o | cmp o | cpx o | cpy o | bit o | and o | ora o | eor o | lda o | ldx o | ldy o =>
    exact ⟨_, rfl, fun t => storesOnly_readOperand t _⟩
  | bcc o | bcs o | beq o | bne o | bpl o | bmi o | bvc o | bvs o => exact ⟨_, rfl, storesOnly_branch _ _⟩
  | plp | pla => exact ⟨_, rfl, storesOnly_pull⟩
  | rts => exact ⟨_, rfl, storesOnly_pull16⟩
  | rti => exact ⟨_, rfl, storesOnly_leaveHandler⟩
  | jmp | tax | tay | txa | tya | tsx | txs | inx | iny | dex | dey | clc | sec | cli | sei | cld | sed | clv | nop =>
    exact ⟨_, rfl, fun t => storesOnly_of_mem rfl⟩

/-- Settles O40: neither the resolver nor the executor stores anything. -/
theorem formsThatStoreNothingKeepMemory : Obligations.FormsThatStoreNothingKeepMemory := by
  intro i s hwf hi hacc
  obtain ⟨d, hd⟩ := Option.isSome_iff_exists.1 ((Instr.wf_iff i).symm.trans hwf)
  obtain ⟨run, he, hrun⟩ := exec_storesNothing s hi hacc
  have hresolved : storesOnly [] s (s.access (resolverAccesses i.operand s)) :=
    ⟨_, rfl, fun addr v h => absurd h (wr_not_mem_resolverAccesses i.operand s addr v)⟩
  rw [he, hd, runForm_some, perform_eq]
  exact ⟨_, rfl, sameBytes_of_storesOnly_nil (hresolved.trans (hrun ((s.access _).setPc _)))⟩

/-! ### Forms that store one byte -/

/-- Beside its own accesses `more` an instruction writes nothing, and none of them touches a register or a control field. -/
theorem after_frame {i : Instr} {s : State} {more : List Access} {stored : List Addr} (hs : s.canonical) (f : Flags)
    (hmore : ∀ addr v, Access.wr addr v ∈ more → addr ∈ stored) :
    let t : State := { after i s more with flags := f }
    sameBytesExcept stored s t ∧ sameControl s t ∧ t.a = s.a ∧ t.x = s.x ∧ t.y = s.y ∧ t.sp = s.sp := by
  refine ⟨sameBytesExcept_of_replay hs rfl fun addr v hw => ?_, ⟨rfl, rfl⟩, rfl, rfl, rfl, rfl⟩
  exact hmore addr v ((List.mem_append.1 hw).resolve_left (wr_not_mem_resolverAccesses i.operand s addr v))

/-- A shift or rotate in a memory mode writes its effective address alone (R130). -/
theorem shiftedState_frame {i : Instr} {s : State} (hs : s.canonical) (hacc : i.operand ≠ .acc) (r : Nat) (out : Bool) :
    let t := shiftedState i i.operand s r out
    sameBytesExcept [effectiveAddr i.operand s] s t ∧ sameControl s t ∧ t.a = s.a ∧ t.x = s.x ∧ t.y = s.y ∧ t.sp = s.sp := by
  rw [shiftedState, if_neg hacc, operandAccesses, if_neg hacc]
  exact after_frame hs _ (by simp)

/-- Settles O41: by their equations, the stores make one write of the effective address, the others a read and a write of it. -/
theorem storingFormsChangeOneByte : Obligations.StoringFormsChangeOneByte := by
  intro i s hwf hs hi hacc
  obtain ⟨-, -, -, hstore⟩ := storesWriteOneByte
  obtain ⟨-, -, hstep⟩ := incAndDecStepMemory
  obtain ⟨-, -, -, -, hshift⟩ := shiftsAndRotatesMoveOneBit
  obtain ⟨hsta, hstx, hsty⟩ := hstore i.operand s
  obtain ⟨hinc, hdec⟩ := hstep i.operand s
  obtain ⟨hasl, hlsr, hrol, hror⟩ := hshift i.operand s
  cases i with
  | sta o => exact ⟨_, hsta hwf, after_frame hs s.flags (by simp)⟩
  | stx o => exact ⟨_, hstx hwf, after_frame hs s.flags (by simp)⟩
  | sty o => exact ⟨_, hsty hwf, after_frame hs s.flags (by simp)⟩
  | inc o => exact ⟨_, hinc hwf, after_frame hs _ (by simp)⟩
  | dec o => exact ⟨_, hdec hwf, after_frame hs _ (by simp)⟩
  | asl o => exact ⟨_, hasl hwf, shiftedState_frame (i := .asl o) hs hacc _ _⟩
  | lsr o => exact ⟨_, hlsr hwf, shiftedState_frame (i := .lsr o) hs hacc _ _⟩
  | rol o => exact ⟨_, hrol hwf, shiftedState_frame (i := .rol o) hs hacc _ _⟩
  | ror o => exact ⟨_, hror hwf, shiftedState_frame (i := .ror o) hs hacc _ _⟩
  | _ => simp [Instr.mnemonic] at hi

end Sys2Proof.Machine
end

section
/-! PROOFS. What a step does: the stall step, the interrupt decision, the instruction it runs, what it returns (R240 to R248, R274 to
R282). -/

namespace Sys2Proof.Machine

/-! ### The stall step and the interrupt decision -/

/-- While stall is owed, a step is a stall step (R275). -/
theorem step_of_stall {s : State} (h : 0 < s.stall) : step s = .next s.stallStep := if_neg (Nat.ne_of_gt h)

/-- With no stall owed, a step runs the instruction found after the interrupt decision (R276). -/
theorem step_of_no_stall {s : State} (h : s.stall = 0) :
    step s = exec s.beginInstruction.fetchInstr s.beginInstruction.fetchOpcode := if_pos h

/-- A step that answers a next state returns the difference of the cycles (R280). -/
theorem stepReturn_of_next {s t : State} (h : step s = .next t) : stepReturn s = t.cycles - s.cycles := by
  rw [stepReturn, h]

/-- Settles O44: the stall step changes these fields alone. -/
theorem stallStepOnlyCountsDown : Obligations.StallStepOnlyCountsDown := by
  intro s h
  exact ⟨step_of_stall h, (stepReturn_of_next (step_of_stall h)).trans (Nat.add_sub_cancel_left s.cycles 1)⟩

/-- What is to be serviced is serviced before the fetch (R247). -/
theorem beginInstruction_of_pending {s : State} {vector : Addr} (h : s.pendingVector = some vector) :
    s.beginInstruction = (s.setBus []).service vector := by
  rcases beginInstruction_cases s with ⟨hnone, -⟩ | ⟨found, hsome, hb⟩
  · cases hnone.symm.trans h
  · cases hsome.symm.trans h
    exact hb

/-- With nothing to service, the record of accesses begins anew, and that is all (R247). -/
theorem beginInstruction_of_no_pending {s : State} (h : s.pendingVector = none) : s.beginInstruction = s.setBus [] := by
  rcases beginInstruction_cases s with ⟨-, hb⟩ | ⟨vector, hsome, -⟩
  · exact hb
  · cases h.symm.trans hsome

/-- A masked IRQ is not to be serviced (R245, R247). -/
theorem pendingVector_of_masked {s : State} (h : s.interrupt = .irq) (hi : s.flags.i = true) : s.pendingVector = none := by
  simp [State.pendingVector, h, hi]

/-- Settles O45: the decision looks at the request, and for an IRQ at I. -/
theorem interruptDecision : Obligations.InterruptDecision := by
  intro s
  refine ⟨fun h => beginInstruction_of_pending ?nmi, fun h hi => beginInstruction_of_pending ?irq,
    fun h hi => beginInstruction_of_no_pending (pendingVector_of_masked h hi), fun h => beginInstruction_of_no_pending ?none⟩
  case nmi => rw [State.pendingVector, h, nmiVector]
  case irq => simp [State.pendingVector, h, hi, irqVector]
  case none => rw [State.pendingVector, h]

/-- Settles O48: a stall step leaves the request, a masked one is not serviced, and no instruction writes it. -/
theorem maskedIrqStaysPending : Obligations.MaskedIrqStaysPending := by
  intro s t h hi hstep
  rcases step_cases hstep with ⟨-, rfl⟩ | ⟨-, he⟩
  · exact h
  · obtain ⟨hinterrupt, -⟩ := instructionsKeepInterruptAndStall _ _ _ he
    rw [hinterrupt, beginInstruction_of_no_pending (pendingVector_of_masked h hi)]
    exact h

/-- Settles O52: every step answers a next state with more cycles. -/
theorem everyStepAnswersANextState : Obligations.EveryStepAnswersANextState := by
  intro s
  obtain ⟨t, ht, -⟩ := step_next_cycles s
  exact ⟨t, ht⟩

/-! ### The instruction a step runs -/

/-- The decoder answers, of three bytes, the instruction that the fetch finds, whichever of the last two are its own (R81, R82). -/
theorem decode_three (op b1 b2 : Byte) : ∃ rest, decode [op, b1, b2] = .ok (decodeBytes op b1 b2, rest) := by
  obtain ⟨hwf, -, -, hencode⟩ := decodingLosesNoBit op b1 b2
  obtain ⟨bytes, hbytes, hdecode⟩ := wellFormedInstructionsRoundTrip _ hwf
  obtain rfl := Option.some.inj (hbytes.symm.trans hencode)
  have h := hdecode ([op, b1, b2].drop (descriptor op).length)
  rw [List.take_append_drop] at h
  exact ⟨_, h⟩

/-- Settles O43: the instruction the step fetches is the one the decoder answers. -/
theorem stepRunsTheDecodedInstruction : Obligations.StepRunsTheDecodedInstruction := by
  intro s i rest hstall begun fetched next hdecode
  obtain ⟨more, hfetch⟩ := decode_three (begun.byteAt begun.pc) (fetched.byteAt (begun.pc + 1)) (next.byteAt (begun.pc + 2))
  obtain ⟨rfl, -⟩ := Prod.mk.inj (Except.ok.inj (hdecode.symm.trans hfetch))
  obtain ⟨hwf, -⟩ := decodingLosesNoBit (begun.byteAt begun.pc) (fetched.byteAt (begun.pc + 1)) (next.byteAt (begun.pc + 2))
  exact ⟨hwf, step_of_no_stall hstall⟩

/-- Three reads at `PC` that answer these bytes fetch the instruction they decode to (R62). -/
theorem fetchInstr_of_reads {s : State} {op b1 b2 : Byte}
    (h : readsFrom s [s.pc, s.pc + 1, s.pc + 2] = [.rd s.pc op, .rd (s.pc + 1) b1, .rd (s.pc + 2) b2]) :
    s.fetchInstr = decodeBytes op b1 b2 := by
  simp only [readsFrom, readOf, List.cons.injEq, Access.rd.injEq, true_and, and_true] at h
  obtain ⟨rfl, rfl, rfl⟩ := h
  rfl

/-- A read of a cell changes nothing behind the contract (R51). -/
theorem Contract.read8_snd_of_cell {m : Contract} {addr : Addr} (h : m.cellAt addr ≠ none) : (m.read8 addr).2 = m := by
  obtain ⟨c, hc⟩ := Option.ne_none_iff_exists'.1 h
  rw [Contract.read8_of_cellAt hc]

/-- A JMP to itself reads its operand bytes, adds 3 to the cycles, and leaves `PC` where it is (R167, R282). -/
theorem exec_jmp_self (s : State) :
    exec (.jmp (.abs s.pc)) s = .next { s.access [.rd (s.pc + 1) (loByte s.pc), .rd (s.pc + 2) (hiByte s.pc)] with
      cycles := s.cycles + 3 } := by
  obtain ⟨-, hjmp⟩ := jmpSetsPc
  obtain ⟨habs, -⟩ := hjmp s.pc s
  rw [habs]
  rfl

/-- Settles O51: the three fetches find a JMP to `PC`, which sets `PC` to what it was. -/
theorem selfJumpChangesOnlyCycles : Obligations.SelfJumpChangesOnlyCycles := by
  intro s hstall hpending fetches hreads
  constructor
  · have hfetch : (s.setBus []).fetchInstr = .jmp (.abs s.pc) := by
      rw [fetchInstr_of_reads (s := s.setBus []) hreads]
      exact congrArg (fun w => Instr.jmp (.abs w)) (word_hiByte_loByte s.pc)
    have hopcode : (s.setBus []).byteAt s.pc = 0x4C := by
      obtain ⟨hfirst, -⟩ := List.cons.inj hreads
      obtain ⟨-, hbyte⟩ := Access.rd.inj hfirst
      exact hbyte
    have hopened : (s.setBus []).fetchOpcode = (s.setBus []).access [.rd s.pc 0x4C] := by
      rw [← hopcode]
      rfl
    rw [step_of_no_stall hstall, beginInstruction_of_no_pending hpending, hfetch, hopened]
    exact exec_jmp_self ((s.setBus []).access [.rd s.pc 0x4C])
  · intro hcells
    have hread (k : Addr) (hk : k ∈ [s.pc, s.pc + 1, s.pc + 2]) : (s.mem.read8 k).2 = s.mem :=
      Contract.read8_snd_of_cell (hcells k hk)
    have hop := hread s.pc (by simp)
    have hlo := hread (s.pc + 1) (by simp)
    have hhi := hread (s.pc + 2) (by simp)
    simp only [fetches, Contract.replay_rd, hop, hlo, hhi, Contract.replay_nil]

/-! ### What a step returns -/

/-- A row of the table costs at least 2; with a page-crossing cost and the penalties of a branch at most 7, or 8 if it is
undocumented (R101, R104, R150). -/
theorem descriptor_cost : ∀ op : Byte, 2 ≤ (descriptor op).cycles ∧
    (descriptor op).cycles + (descriptor op).pageCycles + maxPenalty (descriptor op).mnemonic ≤
      if (descriptor op).mnemonic = .illegal then 8 else 7 := by
  decide +kernel

/-- An instruction adds its base cost to the cycles, and besides at most its page-crossing cost and the penalties of a branch
(R279). -/
theorem exec_cycles {i : Instr} {d : Descriptor} {s t : State} (hd : i.descriptor? = some d) (h : exec i s = .next t) :
    s.cycles + d.cycles ≤ t.cycles ∧ t.cycles ≤ s.cycles + d.cycles + d.pageCycles + maxPenalty i.mnemonic := by
  obtain ⟨row, run, hrow, hrun, rfl⟩ := exec_next_cases h
  obtain rfl := Option.some.inj (hd.symm.trans hrow)
  obtain ⟨hlow, hhigh⟩ := hrun.cycles (resolve i.operand s).1
    ((s.access (resolverAccesses i.operand s)).setPc (s.pc + BitVec.ofNat 16 d.length))
  have hpage : pageCost d (resolve i.operand s).1.crossed ≤ d.pageCycles := by
    rw [pageCost]
    split <;> omega
  simp only [State.setPc_cycles, State.access_cycles] at hlow hhigh
  rw [perform_eq]
  constructor <;> dsimp only <;> omega

/-- What happens before the fetch adds no cycles, or the 7 of a service (R248). -/
theorem beginInstruction_cycles_le (s : State) : s.beginInstruction.cycles ≤ s.cycles + 7 := by
  rcases beginInstruction_cases s with ⟨-, hb⟩ | ⟨vector, -, hb⟩ <;> rw [hb]
  · exact Nat.le_add_right _ _
  · exact Nat.le_of_eq (congrArg State.cycles (State.service_eq (s.setBus []) vector))

/-- The fetched instruction is described by a row of the table, and has its mnemonic (R82). -/
theorem fetchInstr_row (s : State) :
    ∃ op, s.fetchInstr.descriptor? = some (descriptor op) ∧ s.fetchInstr.mnemonic = (descriptor op).mnemonic :=
  ⟨s.byteAt s.pc, descriptor?_decodeBytes _ _ _, mnemonic_instr _ _ _⟩

/-- Settles O54: a stall step adds 1; an instruction step adds the cost of a row, after the 7 cycles of a service at most. -/
theorem stepCostIsBounded : Obligations.StepCostIsBounded := by
  intro s t h
  obtain ⟨u, hu, hgrows⟩ := step_next_cycles s
  obtain rfl := Host.Outcome.next.inj (h.symm.trans hu)
  have hreturn := stepReturn_of_next h
  refine ⟨by omega, fun hstall => (stallStepOnlyCountsDown s hstall).2, fun hstall => ?_⟩
  obtain ⟨op, hd, hm⟩ := fetchInstr_row s.beginInstruction
  obtain ⟨hbase, hmost⟩ := descriptor_cost op
  obtain ⟨hlow, hhigh⟩ := exec_cycles hd ((step_of_no_stall hstall).symm.trans h)
  have hopcode : s.beginInstruction.fetchOpcode.cycles = s.beginInstruction.cycles := rfl
  have hbegun := cycles_le_beginInstruction s
  have hbegun' := beginInstruction_cycles_le s
  rw [hm] at hhigh ⊢
  by_cases hillegal : (descriptor op).mnemonic = .illegal
  · rw [if_pos hillegal] at hmost
    exact ⟨by omega, by omega, fun hdocumented => absurd hillegal hdocumented⟩
  · rw [if_neg hillegal] at hmost
    exact ⟨by omega, by omega, fun _ => by omega⟩

end Sys2Proof.Machine
end

section
/-! PROOFS. What the environment does between steps (R243, R244, R283 to R285). -/

namespace Sys2Proof.Machine

/-- `trigger_irq` requests an IRQ unless an NMI is pending (R244). -/
theorem State.triggerIrq_eq (s : State) : s.triggerIrq = if s.interrupt = .nmi then s else { s with interrupt := .irq } := by
  rw [State.triggerIrq]
  cases s.interrupt <;> rfl

/-- Settles O59: each action is its equation; a read of a cell leaves the contract, and a write through the contract leaves every
byte but those it is led to. -/
theorem environmentActions : Obligations.EnvironmentActions := by
  intro s n addr w v cells event
  refine ⟨rfl, s.triggerIrq_eq, rfl, rfl, rfl, fun hcell => ?read, rfl, rfl, fun hs => ⟨?write, ?write16⟩, rfl⟩
  case read => rw [EnvAction.apply, Contract.read8_snd_of_cell hcell, State.setMem]
  case write => exact sameBytesExcept_of_replay (l := [.wr addr v]) hs rfl (by simp)
  case write16 =>
    refine sameBytesExcept_of_replay (l := [.wr addr (loByte w), .wr (addr + 1) (hiByte w)]) hs rfl fun a b hab => ?_
    simp only [List.mem_cons, Access.wr.injEq, List.not_mem_nil, or_false] at hab ⊢
    exact hab.imp And.left And.left

end Sys2Proof.Machine
end
